-- ==== Sys2Proof/Word.lean ====
section
/-! DEFINITION. The word and byte types (spec 00 R4, R6) and the eight-word tuple that holds the hash state, the digest
registers and the constants IV (spec 10 R13, R29). -/

namespace Sys2Proof

/-- A 32-bit unsigned word: WORD_BITS of 00 R4. Bit 0 is the least significant bit (00 R6). -/
abbrev Word := BitVec 32

/-- A byte of a message, of the block buffer or of the digest. -/
abbrev Byte := BitVec 8

/-- Eight words in state order: STATE_WORDS of 00 R4. The shape of H[0..7], of DOUT[0..7] and of IV[0..7]. -/
structure Words8 where
  w0 : Word
  w1 : Word
  w2 : Word
  w3 : Word
  w4 : Word
  w5 : Word
  w6 : Word
  w7 : Word
  deriving DecidableEq, Repr

namespace Words8

/-- The words in order 0..7. -/
def toList (x : Words8) : List Word := [x.w0, x.w1, x.w2, x.w3, x.w4, x.w5, x.w6, x.w7]

/-- Word `i` of the tuple, `x[i]` of 00 R9. -/
def get (x : Words8) : Fin 8 → Word
  | 0 => x.w0
  | 1 => x.w1
  | 2 => x.w2
  | 3 => x.w3
  | 4 => x.w4
  | 5 => x.w5
  | 6 => x.w6
  | 7 => x.w7

/-- Eight zero words, DOUT after reset and after INIT (10 R29). -/
def zero : Words8 := ⟨0, 0, 0, 0, 0, 0, 0, 0⟩

end Words8

end Sys2Proof
end

