-- ==== Sys2Proof/Config.lean ====
section
/-! DEFINITION. The open parameters of the platform (spec 00 R5) as constants without a body: no proof can see their value, so
a theorem holds whatever it is. -/

namespace Sys2Proof

/-- N_INSTANCES: how many independent cores the platform has (00 R5, 60 R121). -/
opaque Config.nInstances : Nat

/-- SHA_BASE of instance `k`: the bus address of its register window (00 R5, 20 R40). A bus address is a plain number: the spec
gives it no width. -/
opaque Config.shaBase (k : Nat) : Nat

/-- BUS_BAD_ACCESS: what the platform bus does with a narrow or misaligned access to the register window (00 R5, 20 R41), as a code
that nothing interprets: the model refuses such an access and the refusal names this parameter (DESIGN CHOICE, log entry 5). -/
opaque Config.busBadAccess : Nat

/-- COMPRESS_LATENCY: the cycles for which a command keeps BUSY = 1; finite, and it may depend on the command word and on how many
blocks the command compresses (00 R5, 70 R135). -/
opaque Config.compressLatency (w : BitVec 32) (compressions : Nat) : Nat

end Sys2Proof
end

