-- ==== Sys2Proof/Syntax.lean ====
section
/-! DEFINITION. The commands of the core: one constructor per row of spec/opcode_table.json (spec 30 R47). A word that is no
command is no term of this type: decoding refuses it by name (Sys2Proof/Decode.lean). -/

namespace Sys2Proof

/-- The three commands of 30 R47. `ADD_BYTES` is no command but an assembler pseudo-instruction (30 R55): it stands in
Sys2Proof/Machine/Assembler.lean. -/
inductive Instr where
  /-- INIT: construct a fresh engine (42 R86). -/
  | init
  /-- ADD_BYTE b: ingest one message byte (42 R87). The operand is the byte itself (30 R48). -/
  | addByte (b : Byte)
  /-- DIGEST: pad, compress once or twice, publish the digest (42 R90). -/
  | digest
  deriving DecidableEq, Repr

end Sys2Proof
end

