-- ==== Sys2Proof/WellFormed.lean ====
section
/-! DEFINITION. What is well formed: the three fields of a command word and the checks a legal word passes (spec 30 R46, R47,
R51), and the operand range of a command (spec 30 R48). -/

namespace Sys2Proof

/-- The fields of the one format CMD32 (30 R46). -/
structure Cmd32 where
  /-- OP, bits [31:24]. -/
  op : BitVec 8
  /-- RSV, bits [23:8]. -/
  rsv : BitVec 16
  /-- DATA, bits [7:0]. -/
  data : Byte
  deriving DecidableEq, Repr

/-- OP is one of the three assigned codes of 30 R47. -/
def Cmd32.opAssigned (c : Cmd32) : Bool := c.op == 0x01#8 || c.op == 0x02#8 || c.op == 0x03#8

/-- RSV is 0, as in every legal command (30 R46). -/
def Cmd32.rsvZero (c : Cmd32) : Bool := c.rsv == 0#16

/-- DATA is 0 unless the command is ADD_BYTE (30 R46). -/
def Cmd32.dataAllowed (c : Cmd32) : Bool := c.op == 0x02#8 || c.data == 0#8

/-- The fields are those of a legal command (30 R46, R47): all three checks pass. -/
def Cmd32.wf (c : Cmd32) : Bool := c.opAssigned && c.rsvZero && c.dataAllowed

/-- The operand of a command is a byte 0..255 (30 R48). The type of the operand already says so, so every command passes. -/
def Instr.wf : Instr → Bool
  | .init => true
  | .addByte b => decide (b.toNat ≤ 255)
  | .digest => true

end Sys2Proof
end

