-- ==== Sys2Proof/Decode.lean ====
section
/-! DEFINITION. Decoding of every 32-bit word (spec 30 R49), refusing by name the words that are no command (30 R51, R52), and
the encoder written from the same table (30 R46, R47). A command is a 32-bit value written to CMD: it has no byte layout. -/

namespace Sys2Proof

/-- Why a word decodes to ILLEGAL: the classes that 30 R51 lists. All four are the one ILLEGAL result of 30 R49. -/
inductive IllegalWord where
  /-- An unassigned OP (30 R47): 0x00 or 0x04 to 0xFF. -/
  | unassignedOp (op : BitVec 8)
  /-- OP of INIT with a nonzero bit in [23:0]. -/
  | initFieldsNotZero
  /-- OP of ADD_BYTE with a nonzero bit in [23:8]. -/
  | addByteReservedNotZero
  /-- OP of DIGEST with a nonzero bit in [23:0]. -/
  | digestFieldsNotZero
  deriving DecidableEq, Repr

/-- The fields of a word (30 R46). -/
def Cmd32.ofWord (w : Word) : Cmd32 :=
  { op := w.extractLsb' 24 8, rsv := w.extractLsb' 8 16, data := w.extractLsb' 0 8 }

/-- The word of the fields, most significant field first (30 R46). -/
def Cmd32.toWord (c : Cmd32) : Word := c.op ++ c.rsv ++ c.data

/-- `decode(cmd)` of 30 R49, on the fields: a command, or the reason why the word is ILLEGAL. -/
def Cmd32.decode (c : Cmd32) : Except IllegalWord Instr :=
  if c.op = 0x01#8 then
    if c.rsv = 0#16 ∧ c.data = 0#8 then .ok .init else .error .initFieldsNotZero
  else if c.op = 0x02#8 then
    if c.rsv = 0#16 then .ok (.addByte c.data) else .error .addByteReservedNotZero
  else if c.op = 0x03#8 then
    if c.rsv = 0#16 ∧ c.data = 0#8 then .ok .digest else .error .digestFieldsNotZero
  else .error (.unassignedOp c.op)

/-- `decode(cmd)` of 30 R49: total on all 2^32 words. -/
def decode (w : Word) : Except IllegalWord Instr := (Cmd32.ofWord w).decode

/-- The word is one of the legal words of 30 R50. -/
def legal (w : Word) : Bool :=
  match decode w with
  | .ok _ => true
  | .error _ => false

/-- The fields of each command (30 R47). -/
def Instr.fields : Instr → Cmd32
  | .init => { op := 0x01#8, rsv := 0#16, data := 0#8 }
  | .addByte b => { op := 0x02#8, rsv := 0#16, data := b }
  | .digest => { op := 0x03#8, rsv := 0#16, data := 0#8 }

/-- The word of each command (30 R46, R47). -/
def encode (i : Instr) : Word := i.fields.toWord

/-- The instruction the decoder reads from a row of spec/opcode_table.json whose bits are `w`: every row is one 32-bit command
word, bit 0 the least significant, so the number is the word; bits above `nbits` are 0. A number that does not fit in one
command word is no instruction (30 R53). -/
def decodeTableWord (nbits w : Nat) : Option Instr :=
  if nbits ≤ 32 ∧ w < 2 ^ nbits then
    match decode (BitVec.ofNat 32 w) with
    | .ok i => some i
    | .error _ => none
  else none

end Sys2Proof
end

