-- ==== Sys2Proof/Machine/Operands.lean ====
section
/-! DEFINITION. Byte sequences and their big-endian words (spec 00 R8; 20 R37-R39): block words, the length field, the digest
bytes, and the padding bytes. -/

namespace Sys2Proof.Machine

/-- `zeros(n)`: n bytes of 0x00 (00 R8). -/
def zeros (n : Nat) : List Byte := List.replicate n 0x00#8

/-- PAD_MARKER, the byte 0x80 (00 R4; 42 R90). -/
def padMarker : Byte := 0x80#8

/-- Four bytes as one word, the first the most significant (00 R8). -/
def be32 (b0 b1 b2 b3 : Byte) : Word := b0 ++ b1 ++ b2 ++ b3

/-- `BE32(s, i)`: word i of a byte sequence (00 R8, 20 R37). Every use has 4i+3 < len(s). -/
def be32At (s : List Byte) (i : Nat) : Word :=
  be32 (s.getD (4 * i) 0#8) (s.getD (4 * i + 1) 0#8) (s.getD (4 * i + 2) 0#8) (s.getD (4 * i + 3) 0#8)

/-- `BE32_bytes(w)`: the four bytes of a word, most significant first (00 R8, 20 R39). -/
def be32Bytes (w : Word) : List Byte :=
  [w.extractLsb' 24 8, w.extractLsb' 16 8, w.extractLsb' 8 8, w.extractLsb' 0 8]

/-- `BE64_bytes(v)`: the eight bytes of a 64-bit value, most significant first (00 R8, 20 R38). -/
def be64Bytes (v : BitVec 64) : List Byte :=
  [v.extractLsb' 56 8, v.extractLsb' 48 8, v.extractLsb' 40 8, v.extractLsb' 32 8,
   v.extractLsb' 24 8, v.extractLsb' 16 8, v.extractLsb' 8 8, v.extractLsb' 0 8]

/-- M[0..15]: the sixteen words of a 64-byte block (41 R76). -/
def blockWords (blk : List Byte) : List Word := (List.range 16).map (be32At blk)

/-- The 32 bytes of eight words in state order (20 R39; 10 R29). -/
def words8Bytes (x : Words8) : List Byte := x.toList.flatMap be32Bytes

/-- The word that holds digest byte k: k div 4 (10 R29). -/
def digestByteWord (k : Fin 32) : Fin 8 := ⟨k.val / 4, by omega⟩

/-- Digest byte k by the formula of 10 R29: bits [31 − 8(k mod 4) : 24 − 8(k mod 4)] of word k div 4. -/
def digestByte (x : Words8) (k : Fin 32) : Byte := (x.get (digestByteWord k)).extractLsb' (24 - 8 * (k.val % 4)) 8

end Sys2Proof.Machine
end

