-- ==== Sys2Proof/Machine/Primitives.lean ====
section
/-! DEFINITION. The round primitives (spec 40 R61-R68): pure functions of words. Addition of words is `+` of `BitVec 32`, which
wraps modulo 2^32 (00 R7, 40 R69). -/

namespace Sys2Proof.Machine

/-- `ROTR(n, x) = (x >> n) ∨ (x << (32 − n))`, for 0 < n < 32 (40 R61). -/
def rotr (n : Nat) (x : Word) : Word := (x >>> n) ||| (x <<< (32 - n))

/-- `SHR(n, x) = x >> n`, zeros shifted in (40 R62). -/
def shr (n : Nat) (x : Word) : Word := x >>> n

/-- `Ch(x, y, z)` (40 R63). -/
def ch (x y z : Word) : Word := (x &&& y) ^^^ (~~~x &&& z)

/-- `Maj(x, y, z)` (40 R64). -/
def maj (x y z : Word) : Word := (x &&& y) ^^^ (x &&& z) ^^^ (y &&& z)

/-- `Σ0(x)` (40 R65). -/
def bigSigma0 (x : Word) : Word := rotr 2 x ^^^ rotr 13 x ^^^ rotr 22 x

/-- `Σ1(x)` (40 R66). -/
def bigSigma1 (x : Word) : Word := rotr 6 x ^^^ rotr 11 x ^^^ rotr 25 x

/-- `σ0(x)` (40 R67). -/
def smallSigma0 (x : Word) : Word := rotr 7 x ^^^ rotr 18 x ^^^ shr 3 x

/-- `σ1(x)` (40 R68). -/
def smallSigma1 (x : Word) : Word := rotr 17 x ^^^ rotr 19 x ^^^ shr 10 x

end Sys2Proof.Machine
end

