-- ==== Sys2Proof/Machine/Compress.lean ====
section
/-! DEFINITION. The compression function (spec 41 R76-R82): block words, schedule, 64 rounds, feed-forward. Nothing here is
state: the schedule and the working variables live inside one evaluation (10 R16, R17). -/

namespace Sys2Proof.Machine

/-- The working variables a..h of one compression (10 R17). -/
structure Vars where
  a : Word
  b : Word
  c : Word
  d : Word
  e : Word
  f : Word
  g : Word
  h : Word
  deriving DecidableEq, Repr

/-- The next schedule word from the ones before it, newest first: with W[t−1] at the head,
`W[t] = σ1(W[t−2]) + W[t−7] + σ0(W[t−15]) + W[t−16]` (41 R77; 90 C2). -/
def nextScheduleWord (newestFirst : List Word) : Word :=
  smallSigma1 (newestFirst.getD 1 0#32) + newestFirst.getD 6 0#32 + smallSigma0 (newestFirst.getD 14 0#32)
    + newestFirst.getD 15 0#32

/-- `n` more schedule words in front of those already there, newest first (41 R77). -/
def expandSchedule : Nat → List Word → List Word
  | 0, newestFirst => newestFirst
  | n + 1, newestFirst => expandSchedule n (nextScheduleWord newestFirst :: newestFirst)

/-- W[0..63] from M[0..15] (41 R77). -/
def schedule (m : List Word) : List Word := (expandSchedule 48 m.reverse).reverse

/-- One round with its constant and its schedule word (41 R78): every right-hand side reads the old values. -/
def roundWith (k w : Word) (v : Vars) : Vars :=
  let t1 := v.h + bigSigma1 v.e + ch v.e v.f v.g + k + w
  let t2 := bigSigma0 v.a + maj v.a v.b v.c
  { a := t1 + t2, b := v.a, c := v.b, d := v.c, e := v.d + t1, f := v.e, g := v.f, h := v.g }

/-- `round(t, (a,…,h))` of 41 R78: round t takes K[t] and W[t]. -/
def roundAt (w : List Word) (t : Nat) (v : Vars) : Vars := roundWith (kAt t) (w.getD t 0#32) v

/-- The working variables after the first `n` rounds, t = 0 .. n−1 in increasing order (41 R79). -/
def roundsUpTo (w : List Word) (v : Vars) : Nat → Vars
  | 0 => v
  | n + 1 => roundAt w n (roundsUpTo w v n)

/-- The working variables start as a copy of the hash state, a = H[0] .. h = H[7] (41 R79). -/
def Vars.ofWords8 (x : Words8) : Vars :=
  { a := x.w0, b := x.w1, c := x.w2, d := x.w3, e := x.w4, f := x.w5, g := x.w6, h := x.w7 }

/-- The working variables after the 64 rounds of a block (41 R79). -/
def finalVars (x : Words8) (blk : List Byte) : Vars := roundsUpTo (schedule (blockWords blk)) (Vars.ofWords8 x) 64

/-- Feed-forward: each working variable is added to its input state word (41 R80). -/
def feedForward (x : Words8) (v : Vars) : Words8 :=
  ⟨x.w0 + v.a, x.w1 + v.b, x.w2 + v.c, x.w3 + v.d, x.w4 + v.e, x.w5 + v.f, x.w6 + v.g, x.w7 + v.h⟩

/-- `compress(H, blk)` (41 R81). A block that is not 64 bytes gives nothing: the command that asked for it raises
BLOCK_LENGTH (41 R82, 60 R112). -/
def compress (x : Words8) (blk : List Byte) : Option Words8 :=
  if blk.length = 64 then some (feedForward x (finalVars x blk)) else none

end Sys2Proof.Machine
end

