-- ==== Sys2Proof/Machine/State.lean ====
section
/-! DEFINITION. The state of one core instance (spec 10 R11) with the host's actions as plain data, the reset state (70 R126),
and the reasons a step can stop. -/

namespace Sys2Proof.Machine

/-- PHASE (10 R21, R23). The code 3 is never produced, so it is no constructor (93 I7). -/
inductive Phase where
  | accepting
  | finalized
  | faulted
  deriving DecidableEq, Repr

/-- CAUSE (10 R25, 60 R107). The codes 4 to 7 are never produced, so they are no constructors (93 I7). -/
inductive Cause where
  | none
  | illegalCommand
  | useAfterFinalize
  | blockLength
  deriving DecidableEq, Repr

/-- The width of a bus access (20 R41). -/
inductive AccessSize where
  | byte
  | half
  | word
  deriving DecidableEq, Repr

/-- One read by the host (70 R130): through a direct port, or at an offset of the register window (20 R40). -/
inductive HostRead where
  | status
  | dout (i : Fin 8)
  | window (offset : Nat) (size : AccessSize)
  deriving DecidableEq, Repr

/-- One write by the host (70 R130): a command word through the direct port, or a write at an offset of the register window
(20 R40). -/
inductive HostWrite where
  | cmd (w : Word)
  | window (offset : Nat) (size : AccessSize) (data : Word)
  deriving DecidableEq, Repr

/-- One action of the outside world, in the order the host takes them. `during` lists the reads that the host makes before the
write's command completes, that is inside its BUSY window (20 R43, 70 R133; DESIGN CHOICE, log entry 11). A write to a read-only
or reserved offset, which does nothing (20 R40), has no place in a BUSY window: it comes after the command, like a held write, and
the reads after it see BUSY = 0 (DESIGN CHOICE, log entry 11). -/
inductive HostEvent where
  /-- A write; its command, if it delivers one, runs to completion (20 R35, R36). -/
  | write (target : HostWrite) (during : List HostRead)
  /-- A read between commands (20 R42). -/
  | read (r : HostRead)
  /-- Hardware reset between commands (70 R126). -/
  | reset
  /-- Hardware reset while the command word `w` executes, after the reads `during`. `held` is a further command word that the
  host wrote and the core had not yet accepted, if there is one (70 R134). -/
  | resetWhileBusy (w : Word) (during : List HostRead) (held : Option Word)
  /-- A second host writes the command word `w` (20 R34). -/
  | secondHostWrite (w : Word)
  deriving DecidableEq, Repr

/-- Why a step stops with a fault. A contract violation is none of these: the core enters FAULTED and goes on, a next state
(60 R109, R114). -/
inductive Fault where
  /-- Raised by a register-window access at an offset of 64 or more, and by a platform access to an address in no instance's
  window: the window is 64 bytes (20 R40) and the core has no other address. Safe: the model stops. -/
  | outsideWindow
  deriving DecidableEq, Repr

/-- Why a step gives no meaning. -/
inductive Refusal where
  /-- An instruction without a meaning in this model; raised only by a refused arm of exec. Safe. -/
  | notModelled (mnemonic : String)
  /-- Raised by a narrow or misaligned access to the register window: "a model refuses such an access" (20 R41). It names the
  platform parameter that says what the bus does there (00 R5; DESIGN CHOICE, log entry 5). Safe. -/
  | badBusAccess (busBadAccess : Nat)
  /-- Raised by a command write of a second host: "A model refuses it" (20 R34). Safe. -/
  | secondHost
  /-- Raised by a platform access to an address that lies in the windows of two instances: the spec gives no rule for it
  (DESIGN CHOICE, log entry 6). Safe. -/
  | overlappingWindows
  deriving DecidableEq, Repr

/-- One core instance. The first seven fields are the tuple of 10 R11; `pc` is the position of 10 R20; the last two hold the
outside world. STATUS, BUSY and CMD are not stored (10 R26-R28). -/
structure State where
  /-- HashState H[0..7] (10 R13). -/
  h : Words8
  /-- Buffer BUF, the bytes not yet compressed (10 R14). -/
  buf : List Byte
  /-- BITCOUNT (10 R15). -/
  bitcount : BitVec 64
  /-- PHASE (10 R21). -/
  phase : Phase
  /-- ERR, sticky (10 R24). -/
  err : Bool
  /-- CAUSE, the first contract violation since hardware reset (10 R25). -/
  cause : Cause
  /-- DOUT[0..7] (10 R29). -/
  dout : Words8
  /-- How many commands the core has accepted: the index of the next command in the host's stream (10 R20). -/
  pc : Nat
  /-- The model's own field: what the host does next, first event first (20 R35, 70 R130; DESIGN CHOICE, log entry 1). -/
  pending : List HostEvent
  /-- The model's own field: the words the host has read back, oldest first (70 R130; DESIGN CHOICE, log entry 2). -/
  hostReads : List Word
  deriving DecidableEq, Repr

/-- The state right after hardware reset (10 R32, 70 R126), with no host event to come and nothing read yet. -/
def State.reset : State where
  h := iv
  buf := []
  bitcount := 0#64
  phase := .accepting
  err := false
  cause := .none
  dout := Words8.zero
  pc := 0
  pending := []
  hostReads := []

end Sys2Proof.Machine
end

