-- ==== Sys2Proof/Machine/Ops.lean ====
section
/-! DEFINITION. The shared operations: fault entry and the command prologue (spec 60 R109-R115), construction and hardware reset
(42 R86, 70 R126), the buffer work inside one command (42 R87, R90), and reading back a word. -/

namespace Sys2Proof.Machine

/-- Continue with `k` where a part of a step gave a next state; a fault or a refusal ends the step. -/
def andThen (o : Host.Outcome State Fault Refusal) (k : State → Host.Outcome State Fault Refusal) :
    Host.Outcome State Fault Refusal :=
  match o with
  | .next s => k s
  | .fault f => .fault f
  | .refused r => .refused r

/-- `raise Fault(c)` (60 R109): the first cause is kept, ERR is set, PHASE becomes FAULTED, and nothing else changes (60 R110). -/
def raiseFault (c : Cause) (s : State) : State :=
  { s with cause := if s.err then s.cause else c, err := true, phase := .faulted }

/-- The prologue of ADD_BYTE and DIGEST (60 R113): ignored in FAULTED (60 R114), USE_AFTER_FINALIZE in FINALIZED (60 R111), the
body in ACCEPTING. -/
def whenAccepting (body : State → State) (s : State) : State :=
  match s.phase with
  | .faulted => s
  | .finalized => raiseFault .useAfterFinalize s
  | .accepting => body s

/-- The prologue's answer to a word that decodes to ILLEGAL (60 R113): ignored in FAULTED, else ILLEGAL_COMMAND (60 R111, R115). -/
def rejectIllegal (s : State) : State :=
  match s.phase with
  | .faulted => s
  | .finalized => raiseFault .illegalCommand s
  | .accepting => raiseFault .illegalCommand s

/-- Construct a fresh engine, leaving ERR and CAUSE as they are (42 R86). -/
def constructEngine (s : State) : State :=
  { s with h := iv, buf := [], bitcount := 0#64, phase := .accepting, dout := Words8.zero }

/-- Hardware reset (70 R126): the state of `State.reset`. The outside world goes on: what the host still does and what it has
read are kept (DEDUCED, log entry 3). -/
def hardReset (s : State) : State :=
  { State.reset with pending := s.pending, hostReads := s.hostReads }

/-- The host reads back the word `v` (70 R130). -/
def record (v : Word) (s : State) : State :=
  { s with hostReads := s.hostReads ++ [v] }

/-- A command is accepted: the position in the command stream advances by exactly 1 (10 R20). -/
def acceptCommand (s : State) : State := { s with pc := s.pc + 1 }

/-- The part of the engine a command works on before its writes become visible together (20 R36), with the blocks it has
compressed so far, first one first (70 R136). It lives inside one command only. -/
structure Work where
  h : Words8
  buf : List Byte
  bitcount : BitVec 64
  blocks : List (List Byte)
  deriving DecidableEq, Repr

/-- The engine as a command finds it. -/
def Work.ofState (s : State) : Work :=
  { h := s.h, buf := s.buf, bitcount := s.bitcount, blocks := [] }

/-- `BUF <- BUF ++ bs`. -/
def Work.append (bs : List Byte) (k : Work) : Work := { k with buf := k.buf ++ bs }

/-- `H <- compress(H, BUF); BUF <- []` (42 R87, R90). Nothing where compress raises BLOCK_LENGTH (41 R82). -/
def Work.compressBuf (k : Work) : Option Work :=
  match compress k.h k.buf with
  | some x => some { k with h := x, buf := [], blocks := k.blocks ++ [k.buf] }
  | none => none

/-- Make the writes of a command visible together (20 R36): H, BUF and BITCOUNT, then `publish`. Where the command met
BLOCK_LENGTH, all of it is discarded and only the fault is recorded (60 R110, R112). -/
def commit (publish : State → State) (k : Option Work) (s : State) : State :=
  match k with
  | some k => publish { s with h := k.h, buf := k.buf, bitcount := k.bitcount }
  | none => raiseFault .blockLength s

end Sys2Proof.Machine
end

