-- ==== Sys2Proof/Machine/Engine.lean ====
section
/-! DEFINITION. The meanings of the three commands (spec 42 R86, R87, R90), each behind its prologue (60 R113). -/

namespace Sys2Proof.Machine

/-- INIT (42 R86): legal in every phase. -/
def execInit (s : State) : Host.Outcome State Fault Refusal := .next (constructEngine s)

/-- The body of ADD_BYTE b on the engine (42 R87): append the byte, count 8 bits modulo 2^64 (92 D11), and compress exactly when
the buffer now holds 64 bytes. -/
def addByteWork (b : Byte) (s : State) : Option Work :=
  let k := { (Work.ofState s).append [b] with bitcount := s.bitcount + 8#64 }
  if k.buf.length = 64 then k.compressBuf else some k

/-- ADD_BYTE b (42 R87). -/
def execAddByte (b : Byte) (s : State) : Host.Outcome State Fault Refusal :=
  .next (whenAccepting (fun s => commit id (addByteWork b s) s) s)

/-- The first part of DIGEST (42 R90): append 0x80; where more than 56 bytes are now held there is no room for the length, so the
buffer is filled with zeros and compressed (90 C1). A buffer of 64 bytes or more, which no run reaches, gets no zeros and meets
BLOCK_LENGTH (DEDUCED, log entry 10). -/
def padMarkerWork (k : Work) : Option Work :=
  let k := k.append [padMarker]
  if 56 < k.buf.length then (k.append (zeros (64 - k.buf.length))).compressBuf else some k

/-- The second part of DIGEST (42 R90): zeros up to 56 bytes, the bit count big-endian, and the last compression. -/
def padLengthWork (k : Work) : Option Work :=
  ((k.append (zeros (56 - k.buf.length))).append (be64Bytes k.bitcount)).compressBuf

/-- The body of DIGEST on the engine (42 R90). -/
def digestWork (s : State) : Option Work :=
  match padMarkerWork (Work.ofState s) with
  | some k => padLengthWork k
  | none => none

/-- `DOUT <- H; PHASE <- FINALIZED`, the end of DIGEST (42 R90). -/
def publishDigest (s : State) : State := { s with dout := s.h, phase := .finalized }

/-- DIGEST (42 R90). -/
def execDigest (s : State) : Host.Outcome State Fault Refusal :=
  .next (whenAccepting (fun s => commit publishDigest (digestWork s) s) s)

end Sys2Proof.Machine
end

