-- ==== Sys2Proof/Machine/Flags.lean ====
section
/-! DEFINITION. The codes of the status fields and the STATUS word (spec 10 R21-R27). The core has no condition codes (10 R19). -/

namespace Sys2Proof.Machine

/-- The code of PHASE in STATUS[1:0] (10 R21, R23). -/
def Phase.code : Phase → BitVec 2
  | .accepting => 0#2
  | .finalized => 1#2
  | .faulted => 2#2

/-- The code of CAUSE in STATUS[5:3] (10 R25, 60 R107). -/
def Cause.code : Cause → BitVec 3
  | .none => 0#3
  | .illegalCommand => 1#3
  | .useAfterFinalize => 2#3
  | .blockLength => 3#3

/-- A one-bit field as a word. -/
def bitWord (b : Bool) : Word := if b then 1#32 else 0#32

/-- `STATUS = zext_32(BUSY << 6 ∨ CAUSE << 3 ∨ ERR << 2 ∨ PHASE)` (10 R27). -/
def statusWord (busy : Bool) (s : State) : Word :=
  (bitWord busy <<< 6) ||| ((s.cause.code.setWidth 32) <<< 3) ||| (bitWord s.err <<< 2) ||| s.phase.code.setWidth 32

end Sys2Proof.Machine
end

