-- ==== Sys2Proof/Machine/HostPort.lean ====
section
/-! DEFINITION. The host's side of the core (spec 20 R35-R43; 70 R126-R134): delivering a command word, the register window,
reads inside and outside a command's BUSY window, and hardware reset. -/

namespace Sys2Proof.Machine

/-- `execute(cmd)` (30 R49, 60 R113): decode, then run the command, or answer an illegal word. -/
def executeWord (w : Word) (s : State) : Host.Outcome State Fault Refusal :=
  match decode w with
  | .ok i => exec i s
  | .error _ => .next (rejectIllegal s)

/-- One access to the register window (20 R40, R41): outside its 64 bytes there is nothing, a narrow or misaligned access is
refused under the platform's BUS_BAD_ACCESS (00 R5), and any other goes on with `k`. An access is misaligned when its offset is
no multiple of 4 (DESIGN CHOICE, log entry 12). -/
def windowAccess (offset : Nat) (size : AccessSize) (k : State → Host.Outcome State Fault Refusal) (s : State) :
    Host.Outcome State Fault Refusal :=
  if 64 ≤ offset then .fault .outsideWindow
  else if size ≠ .word ∨ offset % 4 ≠ 0 then .refused (.badBusAccess Config.busBadAccess)
  else k s

/-- What a word read at an aligned offset of the window returns (20 R40): CMD and the reserved offsets read 0. -/
def windowWord (busy : Bool) (offset : Nat) (s : State) : Word :=
  match offset with
  | 0x04 => statusWord busy s
  | 0x08 => s.dout.w0
  | 0x0C => s.dout.w1
  | 0x10 => s.dout.w2
  | 0x14 => s.dout.w3
  | 0x18 => s.dout.w4
  | 0x1C => s.dout.w5
  | 0x20 => s.dout.w6
  | 0x24 => s.dout.w7
  | _ => 0#32

/-- The word that a read returns (10 R27, R29; 20 R40). -/
def readValue (busy : Bool) (r : HostRead) (s : State) : Word :=
  match r with
  | .status => statusWord busy s
  | .dout i => s.dout.get i
  | .window offset _ => windowWord busy offset s

/-- One read by the host. Inside a command's BUSY window it returns BUSY = 1 and pre-command values (20 R43); no read has a side
effect on the core (20 R42). -/
def hostRead (busy : Bool) (r : HostRead) (s : State) : Host.Outcome State Fault Refusal :=
  match r with
  | .status => .next (record (readValue busy r s) s)
  | .dout _ => .next (record (readValue busy r s) s)
  | .window offset size => windowAccess offset size (fun s => .next (record (readValue busy r s) s)) s

/-- The host's reads in order. -/
def hostReadAll (busy : Bool) (rs : List HostRead) (s : State) : Host.Outcome State Fault Refusal :=
  match rs with
  | [] => .next s
  | r :: rest => andThen (hostRead busy r s) (hostReadAll busy rest)

/-- A command word delivered to CMD: it is accepted, the host's reads inside its BUSY window see the state before it (20 R43),
and it runs to completion (20 R35, R36). -/
def deliverCommand (w : Word) (during : List HostRead) (s : State) : Host.Outcome State Fault Refusal :=
  andThen (hostReadAll true during (acceptCommand s)) (executeWord w)

/-- One write by the host (20 R40): a word written to CMD is a command; a write to any other offset of the window does nothing,
so BUSY stays 0 for the reads after it (DESIGN CHOICE, log entry 11). -/
def hostWrite (target : HostWrite) (during : List HostRead) (s : State) : Host.Outcome State Fault Refusal :=
  match target with
  | .cmd w => deliverCommand w during s
  | .window offset size data =>
    windowAccess offset size
      (fun s => if offset = 0 then deliverCommand data during s else hostReadAll false during s) s

/-- One event of the outside world (70 R130). A reset while a command runs abandons it and loses a held write (70 R134). A second
host is refused (20 R34). -/
def hostEvent (e : HostEvent) (s : State) : Host.Outcome State Fault Refusal :=
  match e with
  | .write target during => hostWrite target during s
  | .read r => hostRead false r s
  | .reset => .next (hardReset s)
  | .resetWhileBusy _ during _ => andThen (hostReadAll true during s) (fun s => .next (hardReset s))
  | .secondHostWrite _ => .refused .secondHost

/-- The next event leaves the host's queue. -/
def takeEvent (rest : List HostEvent) (s : State) : State := { s with pending := rest }

/-- The command word of a table row, placed as the host's very next event (DESIGN CHOICE, log entry 7). -/
def placeCommand (w : Word) (s : State) : State :=
  { s with pending := .write (.cmd w) [] :: s.pending }

end Sys2Proof.Machine
end

