-- ==== Sys2Proof/Machine/Step.lean ====
section
/-! DEFINITION. One step: the next event of the outside world (spec 20 R35, 70 R130); with none to come the core is idle and
holds its state (60 R125). -/

namespace Sys2Proof.Machine

/-- One step of the machine. A command is one step (92 D24). -/
def step (s : State) : Host.Outcome State Fault Refusal :=
  match s.pending with
  | [] => .next s
  | e :: rest => hostEvent e (takeEvent rest s)

/-- `s` with the command word of a table row as its next command: a row is one 32-bit word, whose bits above `nbits` are 0, so
the number is the word. -/
def State.withFetchWord (s : State) (nbits w : Nat) : State :=
  placeCommand (BitVec.ofNat 32 (w % 2 ^ nbits)) s

end Sys2Proof.Machine
end

