-- ==== Sys2Proof/Machine/Assembler.lean ====
section
/-! DEFINITION. The assembler of a command stream (spec 30 R54-R56; 42 R88): its lines, the pseudo-instruction ADD_BYTES, and the
reading of its text. -/

namespace Sys2Proof.Machine

/-- One assembly line (30 R54, R55). An operand is a number as written; it may be too large for a byte. -/
inductive AsmLine where
  | init
  | addByte (v : Nat)
  | digest
  | addBytes (vs : List Nat)
  deriving DecidableEq, Repr

/-- Every operand is 0..255: any other is an assembly error (30 R54). -/
def AsmLine.wf : AsmLine → Bool
  | .init => true
  | .addByte v => decide (v ≤ 255)
  | .digest => true
  | .addBytes vs => vs.all (fun v => decide (v ≤ 255))

/-- The commands of a line: ADD_BYTES expands to one ADD_BYTE per element, in sequence order (30 R55). -/
def AsmLine.commands : AsmLine → List Instr
  | .init => [.init]
  | .addByte v => [.addByte (BitVec.ofNat 8 v)]
  | .digest => [.digest]
  | .addBytes vs => vs.map (fun v => .addByte (BitVec.ofNat 8 v))

/-- The words of a line, or nothing for an assembly error (30 R54). -/
def assembleLine (l : AsmLine) : Option (List Word) := if l.wf then some (l.commands.map encode) else none

/-- The words of a command stream, in order; one error fails the whole (30 R54). -/
def assemble : List AsmLine → Option (List Word)
  | [] => some []
  | l :: rest =>
    match assembleLine l, assemble rest with
    | some ws, some more => some (ws ++ more)
    | _, _ => none

/-! ### The text (30 R54, R55) -/

/-- The tokens of a line. -/
inductive AsmToken where
  | word (cs : List Char)
  | char (c : Char)
  | string (cs : List Char)
  | openBracket
  | closeBracket
  | comma
  deriving DecidableEq, Repr

/-- Where the reader stands in a line: between tokens, inside a word, a string or a character literal. -/
inductive LexMode where
  | gap
  | word (newestFirst : List Char)
  | string (newestFirst : List Char)
  | quote
  | quoted (c : Char)
  deriving DecidableEq, Repr

/-- The word being read, if there is one, as a finished token. -/
def LexMode.finished : LexMode → List AsmToken
  | .word r => [.word r.reverse]
  | _ => []

/-- The characters of the word being read, newest first. -/
def LexMode.letters : LexMode → List Char
  | .word r => r
  | _ => []

/-- A blank inside a line (DESIGN CHOICE, log entry 9). -/
def isBlank (c : Char) : Bool := c == ' ' || c == '\t' || c == '\r'

/-- The tokens of a line; a `;` outside quotes starts a comment to the end of the line (30 R54). A quote, a bracket or a comma ends
a word, so no blank is needed between a mnemonic and a quoted or bracketed operand (DESIGN CHOICE, log entry 9). -/
def lex : LexMode → List Char → Option (List AsmToken)
  | .string _, [] => none
  | .quote, [] => none
  | .quoted _, [] => none
  | m, [] => some m.finished
  | .string r, c :: cs =>
    if c = '"' then (lex .gap cs).map (AsmToken.string r.reverse :: ·) else lex (.string (c :: r)) cs
  | .quote, c :: cs => lex (.quoted c) cs
  | .quoted x, c :: cs => if c = '\'' then (lex .gap cs).map (AsmToken.char x :: ·) else none
  | m, c :: cs =>
    if c = ';' then some m.finished
    else if isBlank c then (lex .gap cs).map (m.finished ++ ·)
    else if c = '"' then (lex (.string []) cs).map (m.finished ++ ·)
    else if c = '\'' then (lex .quote cs).map (m.finished ++ ·)
    else if c = '[' then (lex .gap cs).map (m.finished ++ AsmToken.openBracket :: ·)
    else if c = ']' then (lex .gap cs).map (m.finished ++ AsmToken.closeBracket :: ·)
    else if c = ',' then (lex .gap cs).map (m.finished ++ AsmToken.comma :: ·)
    else lex (.word (c :: m.letters)) cs

/-- The value of a digit in a base up to 16. -/
def digitValue (base : Nat) (c : Char) : Option Nat :=
  let v :=
    if 48 ≤ c.toNat ∧ c.toNat ≤ 57 then c.toNat - 48
    else if 65 ≤ c.toNat ∧ c.toNat ≤ 70 then c.toNat - 55
    else if 97 ≤ c.toNat ∧ c.toNat ≤ 102 then c.toNat - 87
    else base
  if v < base then some v else none

/-- The number that digits of a base write, after the value `acc` of the digits before them. -/
def digitsValue (base acc : Nat) : List Char → Option Nat
  | [] => some acc
  | c :: cs =>
    match digitValue base c with
    | some v => digitsValue base (acc * base + v) cs
    | none => none

/-- A number: `0x` and hexadecimal digits, or decimal digits (30 R54). Any number of digits of either kind is read by its value, so
leading zeros are allowed (DESIGN CHOICE, log entry 9). -/
def numberValue : List Char → Option Nat
  | [] => none
  | ['0', 'x'] => none
  | '0' :: 'x' :: cs => digitsValue 16 0 cs
  | cs => digitsValue 10 0 cs

/-- The ASCII code of a character (30 R54, R55). -/
def asciiValue (c : Char) : Option Nat := if c.toNat < 128 then some c.toNat else none

/-- The value of `<byte>` (30 R54). Its range is checked when the line is assembled. -/
def operandValue : AsmToken → Option Nat
  | .word cs => numberValue cs
  | .char c => asciiValue c
  | _ => none

/-- The elements of `[b0, b1, …]` after the opening bracket (30 R55). -/
def elements : List AsmToken → Option (List Nat)
  | [t, .closeBracket] => (operandValue t).map (fun v => [v])
  | t :: .comma :: rest =>
    match operandValue t, elements rest with
    | some v, some vs => some (v :: vs)
    | _, _ => none
  | _ => none

/-- A letter in upper case: mnemonics are case-insensitive (30 R54). -/
def upper (c : Char) : Char := if 97 ≤ c.toNat ∧ c.toNat ≤ 122 then Char.ofNat (c.toNat - 32) else c

/-- The four mnemonics, as characters. -/
def mnemonicInit : List Char := ['I', 'N', 'I', 'T']
def mnemonicAddByte : List Char := ['A', 'D', 'D', '_', 'B', 'Y', 'T', 'E']
def mnemonicAddBytes : List Char := ['A', 'D', 'D', '_', 'B', 'Y', 'T', 'E', 'S']
def mnemonicDigest : List Char := ['D', 'I', 'G', 'E', 'S', 'T']

/-- The operand sequence of ADD_BYTES: a string literal's ASCII bytes, or a bracketed list (30 R55). -/
def sequenceValue : List AsmToken → Option (List Nat)
  | [.string cs] => cs.mapM asciiValue
  | [.openBracket, .closeBracket] => some []
  | .openBracket :: rest => elements rest
  | _ => none

/-- The assembly lines of one line of text: none for a blank or comment line, one for a command; an error for any other, since
there are no other pseudo-instructions, directives or labels (30 R54, R56). -/
def parseLine (cs : List Char) : Option (List AsmLine) :=
  match lex .gap cs with
  | none => none
  | some [] => some []
  | some (.word m :: operands) =>
    let m := m.map upper
    if m = mnemonicInit ∧ operands = [] then some [.init]
    else if m = mnemonicDigest ∧ operands = [] then some [.digest]
    else if m = mnemonicAddByte then
      match operands with
      | [t] => (operandValue t).map (fun v => [.addByte v])
      | _ => none
    else if m = mnemonicAddBytes then (sequenceValue operands).map (fun vs => [.addBytes vs])
    else none
  | some _ => none

/-- Text cut into lines at each line feed; `newestFirst` holds the line being read. -/
def splitLines (newestFirst : List Char) : List Char → List (List Char)
  | [] => [newestFirst.reverse]
  | c :: cs => if c = '\n' then newestFirst.reverse :: splitLines [] cs else splitLines (c :: newestFirst) cs

/-- The command words of an assembly text, or nothing for an assembly error (30 R54-R56). -/
def assembleText (text : List Char) : Option (List Word) :=
  match (splitLines [] text).mapM parseLine with
  | some lines => assemble lines.flatten
  | none => none

end Sys2Proof.Machine
end

