-- ==== Sys2Proof/Machine/Platform.lean ====
section
/-! DEFINITION. A platform with N_INSTANCES independent cores on one bus (spec 00 R5; 20 R40; 60 R121): each instance has its own
state and its own register window at its SHA_BASE. -/

namespace Sys2Proof.Machine

/-- The cores of a platform, instance 0 first. They share no state (60 R121). -/
structure Platform where
  cores : List State
  deriving DecidableEq, Repr

/-- Every instance in its hardware-reset state (60 R121, 70 R126). -/
def Platform.reset : Platform := { cores := List.replicate Config.nInstances State.reset }

/-- The bus address lies in the 64-byte window of instance `k` (20 R40). -/
def inWindow (addr k : Nat) : Bool := decide (Config.shaBase k ≤ addr ∧ addr < Config.shaBase k + 64)

/-- Let one instance act: `act` gives its outcome from its state; the others keep theirs (60 R121). -/
def Platform.onCore (k : Nat) (act : State → Host.Outcome State Fault Refusal) (p : Platform) :
    Host.Outcome Platform Fault Refusal :=
  match p.cores[k]? with
  | none => .fault .outsideWindow
  | some s =>
    match act s with
    | .next t => .next { cores := p.cores.set k t }
    | .fault f => .fault f
    | .refused r => .refused r

/-- One step of instance `k`. -/
def Platform.stepCore (k : Nat) (p : Platform) : Host.Outcome Platform Fault Refusal := p.onCore k step

/-- A bus access at an absolute address reaches the instance whose window holds it, at the offset from its SHA_BASE (20 R40).
An address in no window is no register of any core; one in two windows has no rule (DESIGN CHOICE, log entry 6). The access is
aligned when its offset is a multiple of 4, also where SHA_BASE, which the spec gives no alignment, is no multiple of 4 (DESIGN
CHOICE, log entry 12). -/
def Platform.access (addr : Nat) (event : Nat → HostEvent) (p : Platform) : Host.Outcome Platform Fault Refusal :=
  match (List.range p.cores.length).filter (inWindow addr) with
  | [] => .fault .outsideWindow
  | [k] => p.onCore k (hostEvent (event (addr - Config.shaBase k)))
  | _ => .refused .overlappingWindows

/-- A bus write of `size` at an absolute address, with the reads the host makes before it completes. -/
def Platform.busWrite (addr : Nat) (size : AccessSize) (data : Word) (during : List HostRead) :
    Platform → Host.Outcome Platform Fault Refusal :=
  Platform.access addr (fun offset => .write (.window offset size data) during)

/-- A bus read of `size` at an absolute address. -/
def Platform.busRead (addr : Nat) (size : AccessSize) : Platform → Host.Outcome Platform Fault Refusal :=
  Platform.access addr (fun offset => .read (.window offset size))

end Sys2Proof.Machine
end

