-- ==== Sys2Proof/Machine/Rolling.lean ====
section
/-! DEFINITION. The compression function as a hardware with a rolling window of sixteen schedule words computes it (spec 41 R84).
The machine uses `compress`; the claim that both agree is stated for the provers. -/

namespace Sys2Proof.Machine

/-- The window W[t..t+15], oldest first, moved on by one word (41 R84): it drops W[t] and gains W[t+16]. -/
def rollWindow (win : List Word) : List Word :=
  win.tail ++ [smallSigma1 (win.getD 14 0#32) + win.getD 9 0#32 + smallSigma0 (win.getD 1 0#32) + win.getD 0 0#32]

/-- The window and the working variables after `n` rounds, producing W[t] in round t (41 R84). -/
def rollRounds (m : List Word) (v : Vars) : Nat → List Word × Vars
  | 0 => (m, v)
  | n + 1 =>
    let (win, v) := rollRounds m v n
    (rollWindow win, roundWith (kAt n) (win.getD 0 0#32) v)

/-- compress with the rolling window (41 R84). -/
def compressRolling (x : Words8) (blk : List Byte) : Option Words8 :=
  if blk.length = 64 then some (feedForward x (rollRounds (blockWords blk) (Vars.ofWords8 x) 64).2) else none

end Sys2Proof.Machine
end

