-- ==== Sys2Proof/Machine/Timing.lean ====
section
/-! DEFINITION. What the spec says of a command's work and time (spec 70 R135, R136): the blocks it compresses, which are
determined, and the time it takes, which is an open parameter. No step depends on the time. -/

namespace Sys2Proof.Machine

/-- The blocks that a command compresses when its body runs, from the work its meaning does (70 R136). INIT does none. Nothing
stands for a command that meets BLOCK_LENGTH. -/
def blocksCompressed (i : Instr) (s : State) : Option (List (List Byte)) :=
  match i with
  | .init => some []
  | .addByte b => (addByteWork b s).map Work.blocks
  | .digest => (digestWork s).map Work.blocks

/-- The blocks that a command word compresses in the state `s`, first one first (70 R136): none where no body runs, that is for an
illegal word and outside ACCEPTING (60 R113), where INIT compresses none either. -/
def wordBlocks (w : Word) (s : State) : List (List Byte) :=
  match decode w, s.phase with
  | .ok i, .accepting => (blocksCompressed i s).getD []
  | _, _ => []

/-- How many blocks a command word compresses in the state `s` (70 R136). -/
def compressions (w : Word) (s : State) : Nat := (wordBlocks w s).length

/-- The cycles for which a command word keeps BUSY = 1: a finite number for every command (70 R135; DESIGN CHOICE, log entry 4). -/
def busyCycles (w : Word) (s : State) : Nat := Config.compressLatency w (compressions w s)

end Sys2Proof.Machine
end

