-- ==== Sys2Proof/Safety.lean ====
section
/-! DEFINITION. What counts as a successful run (spec 70 R131), the invariant of the machine (10 R30), and the words the claims
use: host events, and a message's blocks and its padded form (42 R89-R92). -/

namespace Sys2Proof.Safety

open Sys2Proof.Machine

/-- The next state, where a step gives one. -/
def next? (o : Host.Outcome State Fault Refusal) : Option State :=
  match o with
  | .next s => some s
  | .fault _ => none
  | .refused _ => none

/-! ### The end of a run (70 R131) -/

/-- What the host observes at the end of a run: STATUS and DOUT. -/
def observation (s : State) : Word × Words8 := (statusWord false s, s.dout)

/-- A run ending here is successful. -/
abbrev Successful (s : State) : Prop := s.err = false ∧ s.phase = .finalized

/-- A run ending here is faulted, whatever DOUT holds (60 R119). -/
abbrev FaultedRun (s : State) : Prop := s.err = true

/-- The 32 bytes of the result. -/
def resultBytes (s : State) : List Byte := words8Bytes s.dout

/-! ### The invariant (10 R30; DEDUCED, log entry 8) -/

/-- The buffer holds at most 63 bytes between commands (10 R30.1). -/
abbrev BufferShort (s : State) : Prop := s.buf.length ≤ 63

/-- The bit count is a multiple of 8, and in ACCEPTING its byte count fits the buffer's length (10 R30.2, R30.3). -/
abbrev BitcountFits (s : State) : Prop :=
  s.bitcount.toNat % 8 = 0 ∧ (s.phase = .accepting → s.buf.length = s.bitcount.toNat / 8 % 64)

/-- DOUT reads as zero in ACCEPTING; in FINALIZED it is H and the buffer is empty (10 R29, R30.4). -/
abbrev DoutFits (s : State) : Prop :=
  (s.phase = .accepting → s.dout = Words8.zero) ∧ (s.phase = .finalized → s.buf = [] ∧ s.dout = s.h)

/-- ERR is set exactly when a cause is recorded, and it is set in FAULTED (60 R109). -/
abbrev FaultRecordFits (s : State) : Prop :=
  (s.err = false ↔ s.cause = .none) ∧ (s.phase = .faulted → s.err = true)

/-- The invariant that holds at every observation point. -/
abbrev EngineInv (s : State) : Prop := BufferShort s ∧ BitcountFits s ∧ DoutFits s ∧ FaultRecordFits s

/-! ### Commands and events -/

/-- The host writes these command words in order, with no read inside their BUSY windows. -/
def commandEvents (ws : List Word) : List HostEvent := ws.map (fun w => .write (.cmd w) [])

/-- The command words of `ADD_BYTES m` (30 R55). -/
def addBytesWords (m : List Byte) : List Word := m.map (fun b => encode (.addByte b))

/-- The event resets the core (70 R126, R134). -/
def isReset : HostEvent → Bool
  | .write _ _ => false
  | .read _ => false
  | .reset => true
  | .resetWhileBusy _ _ _ => true
  | .secondHostWrite _ => false

/-- The command word that an event delivers to CMD and that runs to completion, if there is one (20 R35, R40). A command that a
hardware reset abandons is none (70 R134). -/
def deliveredWord : HostEvent → Option Word
  | .write (.cmd w) _ => some w
  | .write (.window offset size data) _ => if offset = 0 ∧ size = .word then some data else none
  | .read _ => none
  | .reset => none
  | .resetWhileBusy _ _ _ => none
  | .secondHostWrite _ => none

/-- The read is one that the core answers: through a port, or an aligned word inside the window (20 R40, R41). -/
def readAllowed : HostRead → Bool
  | .status => true
  | .dout _ => true
  | .window offset size => decide (offset < 64 ∧ offset % 4 = 0 ∧ size = .word)

/-! ### The work of a run (70 R136) -/

/-- The blocks that the next step compresses: those of the command word that its event delivers, if it delivers one. A command that
a hardware reset abandons counts for none (DESIGN CHOICE, log entry 13). -/
def stepBlocks (s : State) : List (List Byte) :=
  match s.pending with
  | [] => []
  | e :: _ =>
    match deliveredWord e with
    | some w => wordBlocks w s
    | none => []

/-- The blocks that the next `k` steps compress, first one first, up to the first step that stops. -/
def runBlocks : Nat → State → List (List Byte)
  | 0, _ => []
  | k + 1, s =>
    match step s with
    | .next t => stepBlocks s ++ runBlocks k t
    | .fault _ => []
    | .refused _ => []

/-- How many compressions the next step does: those of the command word that its event delivers, if it delivers one. A command that
a hardware reset abandons counts for none (DESIGN CHOICE, log entry 13). -/
def stepCompressions (s : State) : Nat :=
  match s.pending with
  | [] => 0
  | e :: _ =>
    match deliveredWord e with
    | some w => compressions w s
    | none => 0

/-- How many compressions the next `k` steps do, up to the first step that stops: the sum over the command words they run (70
R136). -/
def runCompressions : Nat → State → Nat
  | 0, _ => 0
  | k + 1, s =>
    match step s with
    | .next t => stepCompressions s + runCompressions k t
    | .fault _ => 0
    | .refused _ => 0

/-! ### Messages and blocks (42 R89-R92) -/

/-- The full 64-byte blocks of a message, in order. -/
def fullBlocks (m : List Byte) : List (List Byte) :=
  (List.range (m.length / 64)).map (fun j => (m.drop (64 * j)).take 64)

/-- The bytes after the last full block: `r` of 42 R89. -/
def lastBytes (m : List Byte) : List Byte := m.drop (64 * (m.length / 64))

/-- Blocks compressed one after another (42 R89). -/
def hashBlocks (x : Words8) : List (List Byte) → Option Words8
  | [] => some x
  | b :: rest =>
    match compress x b with
    | some y => hashBlocks y rest
    | none => none

/-- The least k with (n + 1 + k) mod 64 = 56 (42 R92). -/
def padZeros (n : Nat) : Nat := (119 - n % 64) % 64

/-- `m ++ [0x80] ++ zeros(k) ++ BE64_bytes(8n)` (42 R92). -/
def paddedMessage (m : List Byte) : List Byte :=
  m ++ [padMarker] ++ zeros (padZeros m.length) ++ be64Bytes (BitVec.ofNat 64 (8 * m.length))

/-- The padded blocks that DIGEST compresses, by the table of 42 R91. -/
def digestBlocks (buf : List Byte) (bitcount : BitVec 64) : List (List Byte) :=
  if buf.length ≤ 55 then [buf ++ [padMarker] ++ zeros (55 - buf.length) ++ be64Bytes bitcount]
  else [buf ++ [padMarker] ++ zeros (63 - buf.length), zeros 56 ++ be64Bytes bitcount]

end Sys2Proof.Safety
end

