-- ==== Sys2Proof/Certificates/Slice0/Obligations.lean ====
section
/-! DEFINITION. The statements for the provers, each a named proposition over the model, formalising the rules of spec/. -/

open Sys2Proof Sys2Proof.Machine Sys2Proof.Safety

/-! ### Encoding and decoding (30 R46-R53) -/

/-- 30 R49, R52: a word decodes to a command exactly when it is that command's encoding, so decoding an encoding gives the command
back with its operand, and no other word has a meaning. -/
def Obligations.DecodeIsInverseOfEncode : Prop :=
  (∀ i, decode (encode i) = .ok i) ∧ ∀ w i, decode w = .ok i → w = encode i

/-- 30 R47, R48: the match and mask of each row of the opcode map, with the operand b = cmd[7:0]. -/
def Obligations.OpcodeMapMatchAndMask : Prop :=
  ∀ w : Word,
    (decode w = .ok .init ↔ w &&& 0xFFFFFFFF#32 = 0x01000000#32) ∧
    (∀ b : Byte, decode w = .ok (.addByte b) ↔ w &&& 0xFFFFFF00#32 = 0x02000000#32 ∧ b = w.setWidth 8) ∧
    (decode w = .ok .digest ↔ w &&& 0xFFFFFFFF#32 = 0x03000000#32)

/-- 30 R50: the legal words are 0x01000000, 0x02000000..0x020000FF and 0x03000000, which are 258 words, all different. -/
def Obligations.LegalWordsAreExactly258 : Prop :=
  ∃ ws : List Word, ws.length = 258 ∧ ws.Nodup ∧ (∀ w, legal w = true ↔ w ∈ ws) ∧
    ∀ w, w ∈ ws ↔ w = 0x01000000#32 ∨ (0x02000000 ≤ w.toNat ∧ w.toNat ≤ 0x020000FF) ∨ w = 0x03000000#32

/-- 30 R51: the classes of illegal words, by the arithmetic of the word: an unassigned OP; INIT or DIGEST with a nonzero bit in
[23:0]; ADD_BYTE with a nonzero bit in [23:8]. Together they are all words that are not legal. -/
def Obligations.IllegalWordClasses : Prop :=
  ∀ w : Word,
    ((∃ op, decode w = .error (.unassignedOp op)) ↔ w.toNat / 2 ^ 24 ∉ [1, 2, 3]) ∧
    (decode w = .error .initFieldsNotZero ↔ w.toNat / 2 ^ 24 = 1 ∧ w.toNat % 2 ^ 24 ≠ 0) ∧
    (decode w = .error .addByteReservedNotZero ↔ w.toNat / 2 ^ 24 = 2 ∧ w.toNat / 2 ^ 8 % 2 ^ 16 ≠ 0) ∧
    (decode w = .error .digestFieldsNotZero ↔ w.toNat / 2 ^ 24 = 3 ∧ w.toNat % 2 ^ 24 ≠ 0) ∧
    (legal w = false ↔ ∃ e, decode w = .error e)

/-- 95 section 7: a few words of the spec's decode table, one for each command and one for each class of illegal words. -/
def Obligations.DecodeTableSamples : Prop :=
  decode 0x01000000#32 = .ok .init ∧ decode 0x02000061#32 = .ok (.addByte 0x61#8) ∧
  decode 0x02000080#32 = .ok (.addByte 0x80#8) ∧ decode 0x03000000#32 = .ok .digest ∧
  legal 0x00000000#32 = false ∧ legal 0x01000100#32 = false ∧ legal 0x02800000#32 = false ∧ legal 0x03000080#32 = false

/-! ### The step and the delivery of commands (10 R20; 20 R35, R40; 60 R113, R125) -/

/-- 10 R20, 20 R35: when the host's next event is a write of a word that decodes to a command, the step is that command's meaning
on the state with the event taken and the position in the command stream advanced by exactly 1. The same holds for a write to
offset 0x00 of the register window (20 R40). -/
def Obligations.StepRunsDecodedCommand : Prop :=
  ∀ (s : State) (w : Word) (i : Instr) (rest : List HostEvent), decode w = .ok i →
    (s.pending = .write (.cmd w) [] :: rest ∨ s.pending = .write (.window 0x00 .word w) [] :: rest) →
      step s = exec i { s with pending := rest, pc := s.pc + 1 }

/-- 20 R35: two command words the host writes one after the other run in that order, the second on the state the first leaves. -/
def Obligations.CommandsRunInIssueOrder : Prop :=
  ∀ (s : State) (w₁ w₂ : Word) (rest : List HostEvent), s.pending = commandEvents [w₁, w₂] ++ rest →
    ∃ t u, executeWord w₁ { s with pending := commandEvents [w₂] ++ rest, pc := s.pc + 1 } = .next t ∧
      executeWord w₂ { t with pending := rest, pc := s.pc + 2 } = .next u ∧
      Host.Core.run Sys2Proof.core 2 s = .next u

/-- 10 R20: the position in the command stream advances by exactly 1 for each accepted command word, legal or not, and by nothing
else; it starts again at 0 with a hardware reset (the model's choice, DEDUCED, log entry 3). -/
def Obligations.PositionAdvancesByOnePerCommand : Prop :=
  ∀ (s t : State) (e : HostEvent) (rest : List HostEvent), s.pending = e :: rest → step s = .next t →
    (isReset e = true → t.pc = 0) ∧
    (isReset e = false → ∀ w, deliveredWord e = some w → t.pc = s.pc + 1) ∧
    (isReset e = false → deliveredWord e = none → t.pc = s.pc)

/-- 60 R113, R114; 30 R51; 20 R40: when the host's next event is a write of an illegal word, through the port or at offset 0x00 of the
register window, with any reads the core answers in its BUSY window, the step accepts it and raises ILLEGAL_COMMAND in ACCEPTING and FINALIZED, and does nothing more in FAULTED. -/
def Obligations.StepAnswersIllegalWord : Prop :=
  ∀ (s : State) (w : Word) (during : List HostRead) (rest : List HostEvent), legal w = false →
    during.all readAllowed = true →
    (s.pending = .write (.cmd w) during :: rest ∨ s.pending = .write (.window 0x00 .word w) during :: rest) →
    (s.phase ≠ .faulted → step s = .next { s with
      pending := rest, pc := s.pc + 1, hostReads := s.hostReads ++ during.map (fun r => readValue true r s),
      phase := .faulted, err := true, cause := if s.err then s.cause else .illegalCommand }) ∧
    (s.phase = .faulted → step s = .next { s with
      pending := rest, pc := s.pc + 1, hostReads := s.hostReads ++ during.map (fun r => readValue true r s) })

/-- 60 R125: with no host event to come the core is idle and holds its state. -/
def Obligations.IdleCoreHoldsItsState : Prop := ∀ s : State, s.pending = [] → step s = .next s

/-- 20 R34: a command write of a second host is refused, whatever the state. -/
def Obligations.SecondHostIsRefused : Prop :=
  ∀ (s : State) (w : Word) (rest : List HostEvent), s.pending = .secondHostWrite w :: rest → step s = .refused .secondHost

/-! ### INIT (42 R86; 70 R127) -/

/-- 42 R86: INIT is exactly the word 0x01000000; in every phase it completes with a fresh engine, ERR and CAUSE unchanged, and
nothing else changed; two INITs in a row are equivalent to one; where no fault was recorded, STATUS reads 0 after it. -/
def Obligations.InitConstructsFreshEngine : Prop :=
  (∀ w, decode w = .ok .init ↔ w = 0x01000000#32) ∧
  ∀ s : State,
    exec .init s = .next { s with
      h := iv, buf := [], bitcount := 0#64, phase := .accepting, dout := ⟨0, 0, 0, 0, 0, 0, 0, 0⟩ } ∧
    ∀ t, exec .init s = .next t →
      exec .init t = .next t ∧ (s.err = false → s.cause = .none → statusWord false t = 0x00000000#32)

/-- 70 R127: in every field but ERR and CAUSE the result of INIT equals the reset state (the position and the host's own data
are as before). -/
def Obligations.InitDiffersFromResetInErrAndCause : Prop :=
  ∀ s t : State, exec .init s = .next t →
    t = { State.reset with err := s.err, cause := s.cause, pc := s.pc, pending := s.pending, hostReads := s.hostReads }

/-! ### ADD_BYTE (42 R87) -/

/-- 42 R87: ADD_BYTE b is exactly the word 0x020000bb. In ACCEPTING it completes: it appends the byte and adds 8 to BITCOUNT modulo 2^64; the
byte that makes 64 compresses the 64 bytes into H and empties the buffer. Nothing else changes. In FINALIZED it raises
USE_AFTER_FINALIZE and in FAULTED it is ignored. -/
def Obligations.AddByteIngestsOneByte : Prop :=
  ∀ (s : State) (b : Byte),
    (∀ w : Word, decode w = .ok (.addByte b) ↔ w.toNat = 0x02000000 + b.toNat) ∧
    (s.phase = .accepting → s.buf.length ≠ 63 →
      exec (.addByte b) s = .next { s with buf := s.buf ++ [b], bitcount := s.bitcount + 8#64 }) ∧
    (s.phase = .accepting → s.buf.length = 63 →
      ∃ x, compress s.h (s.buf ++ [b]) = some x ∧
        exec (.addByte b) s = .next { s with h := x, buf := [], bitcount := s.bitcount + 8#64 }) ∧
    (s.phase = .finalized → exec (.addByte b) s = .next { s with
      phase := .faulted, err := true, cause := if s.err then s.cause else .useAfterFinalize }) ∧
    (s.phase = .faulted → exec (.addByte b) s = .next s)

/-! ### DIGEST (42 R90-R94) -/

/-- 42 R90, R91, R94: DIGEST is exactly the word 0x03000000. In ACCEPTING with L buffered bytes it completes: for L ≤ 55 it compresses one
padded block, for L = 56..63 two, then publishes H in DOUT and enters FINALIZED; BITCOUNT is read and not changed, and nothing
else changes. In FINALIZED it raises USE_AFTER_FINALIZE and in FAULTED it is ignored. -/
def Obligations.DigestPadsAndPublishes : Prop :=
  (∀ w, decode w = .ok .digest ↔ w = 0x03000000#32) ∧
  ∀ s : State,
    (s.phase = .accepting → s.buf.length ≤ 55 →
      ∃ x, compress s.h (s.buf ++ [0x80#8] ++ List.replicate (55 - s.buf.length) 0#8 ++ be64Bytes s.bitcount) = some x ∧
        exec .digest s = .next { s with h := x, buf := [], dout := x, phase := .finalized }) ∧
    (s.phase = .accepting → 56 ≤ s.buf.length → s.buf.length ≤ 63 →
      ∃ x y, compress s.h (s.buf ++ [0x80#8] ++ List.replicate (63 - s.buf.length) 0#8) = some x ∧
        compress x (List.replicate 56 0#8 ++ be64Bytes s.bitcount) = some y ∧
        exec .digest s = .next { s with h := y, buf := [], dout := y, phase := .finalized }) ∧
    (s.phase = .finalized → exec .digest s = .next { s with
      phase := .faulted, err := true, cause := if s.err then s.cause else .useAfterFinalize }) ∧
    (s.phase = .faulted → exec .digest s = .next s)

/-- 42 R93: DIGEST straight after INIT compresses the one block 0x80 followed by 63 zero bytes and gives the empty-message digest. -/
def Obligations.EmptyInputDigest : Prop :=
  ∀ s t : State, exec .init s = .next t →
    blocksCompressed .digest t = some [0x80#8 :: List.replicate 63 0#8] ∧
    exec .digest t = .next { t with
      h := ⟨0xe3b0c442#32, 0x98fc1c14#32, 0x9afbf4c8#32, 0x996fb924#32, 0x27ae41e4#32, 0x649b934c#32, 0xa495991b#32, 0x7852b855#32⟩,
      dout := ⟨0xe3b0c442#32, 0x98fc1c14#32, 0x9afbf4c8#32, 0x996fb924#32, 0x27ae41e4#32, 0x649b934c#32, 0xa495991b#32, 0x7852b855#32⟩,
      phase := .finalized }

/-- 60 R106: a legal command in ACCEPTING, with the buffer as short as it is between commands, always completes without a
fault. -/
def Obligations.LegalCommandsInAcceptingNeverFault : Prop :=
  ∀ (i : Instr) (s : State), s.phase = .accepting → s.buf.length ≤ 63 →
    ∃ t, exec i s = .next t ∧ t.phase ≠ .faulted ∧ t.err = s.err ∧ t.cause = s.cause

/-- 70 R136: INIT never compresses; ADD_BYTE compresses exactly when it fills the buffer, and then the buffer with its byte; DIGEST
compresses the one or two padded blocks of the table of 42 R91, twice exactly when the buffer holds 56 bytes or more. A command
word compresses the blocks of its command in ACCEPTING; a word whose body does not run (in FINALIZED or FAULTED, or illegal)
compresses nothing (60 R113). But for INIT, the new H is the old one with just these blocks compressed into it. -/
def Obligations.BlocksEachCommandCompresses : Prop :=
  ∀ (s : State) (b : Byte), s.buf.length ≤ 63 →
    blocksCompressed .init s = some [] ∧
    blocksCompressed (.addByte b) s = some (if s.buf.length = 63 then [s.buf ++ [b]] else []) ∧
    blocksCompressed .digest s = some (digestBlocks s.buf s.bitcount) ∧
    (digestBlocks s.buf s.bitcount).length = (if 56 ≤ s.buf.length then 2 else 1) ∧
    ∀ w : Word,
      (∀ i, decode w = .ok i → s.phase = .accepting → blocksCompressed i s = some (wordBlocks w s)) ∧
      (legal w = false ∨ s.phase ≠ .accepting → compressions w s = 0) ∧
      (compressions w s = (wordBlocks w s).length) ∧
      (decode w ≠ .ok .init → ∃ t, executeWord w s = .next t ∧ hashBlocks s.h (wordBlocks w s) = some t.h)

/-! ### Faults (60 R109-R117; 10 R22-R25) -/

/-- 60 R111, R115: a word outside the legal ones, in ACCEPTING or FINALIZED, raises ILLEGAL_COMMAND (not USE_AFTER_FINALIZE); a legal
ADD_BYTE or DIGEST in FINALIZED raises USE_AFTER_FINALIZE; a legal INIT in FINALIZED is no violation. Raising a cause records
it when no fault was recorded before, and keeps the first one otherwise (60 R109). -/
def Obligations.EachCauseIsRaisedWhereTheSpecSays : Prop :=
  ∀ (s : State) (w : Word),
    (legal w = false → s.phase ≠ .faulted → executeWord w s = .next { s with
      phase := .faulted, err := true, cause := if s.err then s.cause else .illegalCommand }) ∧
    (∀ i, decode w = .ok i → i ≠ .init → s.phase = .finalized → executeWord w s = .next { s with
      phase := .faulted, err := true, cause := if s.err then s.cause else .useAfterFinalize }) ∧
    (decode w = .ok .init → s.phase = .finalized →
      ∃ t, executeWord w s = .next t ∧ t.phase = .accepting ∧ t.err = s.err ∧ t.cause = s.cause)

/-- 60 R109, R110, R117: a command that enters FAULTED changes only PHASE, ERR and CAUSE, and keeps the first cause where an earlier
fault is recorded. -/
def Obligations.FaultsArePreciseAndKeepFirstCause : Prop :=
  ∀ (s t : State) (w : Word), s.phase ≠ .faulted → executeWord w s = .next t → t.phase = .faulted →
    t = { s with phase := .faulted, err := true, cause := t.cause } ∧
    (s.err = true → t.cause = s.cause) ∧ (s.err = false → t.cause ≠ .none)

/-- 60 R114: in FAULTED every word but a legal INIT leaves the state exactly as it is. -/
def Obligations.FaultedIgnoresAllButInit : Prop :=
  ∀ (s : State) (w : Word), s.phase = .faulted → decode w ≠ .ok .init → executeWord w s = .next s

/-- 60 R112, 41 R82: a DIGEST that meets a block of more than 64 bytes (no run reaches such a buffer) raises BLOCK_LENGTH and
discards the whole command (DEDUCED, log entry 10); compress computes nothing for a block that is not 64 bytes. -/
def Obligations.BlockLengthFaultComputesNothing : Prop :=
  (∀ x blk, compress x blk = none ↔ blk.length ≠ 64) ∧
  ∀ s : State, s.phase = .accepting → 64 ≤ s.buf.length → exec .digest s = .next { s with
    phase := .faulted, err := true, cause := if s.err then s.cause else .blockLength }

/-- 60 R112: in states that meet the invariant no step records BLOCK_LENGTH. -/
def Obligations.BlockLengthIsUnreachable : Prop :=
  ∀ s t : State, EngineInv s → s.cause ≠ .blockLength → step s = .next t → t.cause ≠ .blockLength

/-- 10 R22, the rows about commands: a command word always completes, and the phase after it is exactly the table's. The premise
is the buffer bound that every step keeps. -/
def Obligations.PhaseTransitionsAreExactly : Prop :=
  ∀ (s : State) (w : Word), s.buf.length ≤ 63 → ∃ t, executeWord w s = .next t ∧
    (decode w = .ok .init → t.phase = .accepting) ∧
    (∀ b, decode w = .ok (.addByte b) → s.phase = .accepting → t.phase = .accepting) ∧
    (decode w = .ok .digest → s.phase = .accepting → t.phase = .finalized) ∧
    (∀ i, decode w = .ok i → i ≠ .init → s.phase = .finalized → t.phase = .faulted ∧ (s.err = false → t.cause = .useAfterFinalize)) ∧
    (legal w = false → s.phase ≠ .faulted → t.phase = .faulted) ∧
    (decode w ≠ .ok .init → s.phase = .faulted → t = s)

/-- 60 R116: a step leaves FAULTED only by a command word that is a legal INIT, or by a hardware reset. -/
def Obligations.FaultedIsLeftOnlyByInitOrReset : Prop :=
  ∀ (s t : State) (e : HostEvent) (rest : List HostEvent), s.pending = e :: rest → s.phase = .faulted →
    step s = .next t → t.phase ≠ .faulted → isReset e = true ∨ deliveredWord e = some 0x01000000#32

/-- 10 R24, R25: once ERR is set, every step that is no hardware reset keeps ERR and CAUSE. -/
def Obligations.ErrAndCauseAreStickyUntilReset : Prop :=
  ∀ s t : State, s.err = true → step s = .next t → (∀ e rest, s.pending = e :: rest → isReset e = false) →
    t.err = true ∧ t.cause = s.cause

/-- 10 R25: CAUSE is written only when ERR goes from 0 to 1, and by hardware reset. -/
def Obligations.CauseIsWrittenOnlyWithErr : Prop :=
  ∀ s t : State, step s = .next t → t.cause ≠ s.cause →
    (s.err = false ∧ t.err = true) ∨ ∃ e rest, s.pending = e :: rest ∧ isReset e = true

/-! ### Frames (10 R13-R15, R29) -/

/-- 10 R13, R14, R15, R29: what each command leaves unchanged in every state. INIT keeps ERR and CAUSE; ADD_BYTE keeps DOUT; DIGEST
keeps BITCOUNT; no command touches the position or the host's own data. -/
def Obligations.CommandFrames : Prop :=
  ∀ (i : Instr) (s t : State), exec i s = .next t →
    t.pc = s.pc ∧ t.pending = s.pending ∧ t.hostReads = s.hostReads ∧
    (i = .init → t.err = s.err ∧ t.cause = s.cause) ∧
    (∀ b, i = .addByte b → t.dout = s.dout) ∧
    (i = .digest → t.bitcount = s.bitcount) ∧
    (i ≠ .init → s.phase ≠ .accepting → t.h = s.h ∧ t.buf = s.buf ∧ t.bitcount = s.bitcount ∧ t.dout = s.dout)

/-- 10 R13: the only writers of H: a step changes H only by a hardware reset, or by a command word that is INIT, ADD_BYTE with the
buffer one short of full, or DIGEST, the last two in ACCEPTING. -/
def Obligations.HashStateHasNoOtherWriter : Prop :=
  ∀ (s t : State), step s = .next t → t.h ≠ s.h →
    ∃ e rest, s.pending = e :: rest ∧ (isReset e = true ∨ ∃ w, deliveredWord e = some w ∧
      (decode w = .ok .init ∨ (∃ b, decode w = .ok (.addByte b) ∧ s.phase = .accepting ∧ s.buf.length = 63) ∨
        (decode w = .ok .digest ∧ s.phase = .accepting)))

/-- 10 R29: the only writers of DOUT: a step changes DOUT only by a hardware reset or INIT, which make it zero, or by a DIGEST in
ACCEPTING, which makes it the new H and enters FINALIZED. -/
def Obligations.DoutHasNoOtherWriter : Prop :=
  ∀ (s t : State), step s = .next t → t.dout ≠ s.dout →
    ∃ e rest, s.pending = e :: rest ∧
      ((isReset e = true ∧ t.dout = Words8.zero) ∨
       (∃ w, deliveredWord e = some w ∧ decode w = .ok .init ∧ t.dout = Words8.zero) ∨
       (∃ w, deliveredWord e = some w ∧ decode w = .ok .digest ∧ s.phase = .accepting ∧ t.dout = t.h ∧ t.phase = .finalized))

/-- 10 R15: the only writers of BITCOUNT: a step changes it only by adding 8 modulo 2^64 (ADD_BYTE in ACCEPTING), or by making it 0
(INIT and hardware reset). -/
def Obligations.BitcountHasNoOtherWriter : Prop :=
  ∀ (s t : State), step s = .next t → t.bitcount ≠ s.bitcount →
    ∃ e rest, s.pending = e :: rest ∧
      ((isReset e = true ∧ t.bitcount = 0#64) ∨
       (∃ w, deliveredWord e = some w ∧ decode w = .ok .init ∧ t.bitcount = 0#64) ∨
       (∃ w b, deliveredWord e = some w ∧ decode w = .ok (.addByte b) ∧ s.phase = .accepting ∧
         t.bitcount.toNat = (s.bitcount.toNat + 8) % 2 ^ 64))

/-! ### The invariant (10 R30) -/

/-- 70 R126, 10 R32: the reset state. The position and the host's own data are the model's (log entries 1, 2). -/
def Obligations.ResetStateValues : Prop :=
  State.reset = {
    h := ⟨0x6A09E667#32, 0xBB67AE85#32, 0x3C6EF372#32, 0xA54FF53A#32, 0x510E527F#32, 0x9B05688C#32, 0x1F83D9AB#32, 0x5BE0CD19#32⟩,
    buf := [], bitcount := 0#64, phase := .accepting, err := false, cause := .none, dout := ⟨0, 0, 0, 0, 0, 0, 0, 0⟩,
    pc := 0, pending := [], hostReads := [] } ∧ statusWord false State.reset = 0x00000000#32

/-- 10 R30: the invariant holds in the reset state, whatever events are to come. -/
def Obligations.InvariantHoldsAtReset : Prop :=
  ∀ (events : List HostEvent) (reads : List Word), EngineInv { State.reset with pending := events, hostReads := reads }

/-- 10 R30, R29; 60 R109: every step, from every state that meets the invariant, gives a state that meets it. -/
def Obligations.EveryStepKeepsInvariant : Prop := ∀ s t : State, EngineInv s → step s = .next t → EngineInv t

/-- 10 R14, R30.1: every step, from every state with at most 63 buffered bytes, leaves at most 63. -/
def Obligations.EveryStepKeepsBufferShort : Prop :=
  ∀ s t : State, s.buf.length ≤ 63 → step s = .next t → t.buf.length ≤ 63

/-- 70 R131: in states that meet the invariant a run is successful exactly when STATUS reads 0x00000001. -/
def Obligations.SuccessIsVisibleInStatus : Prop :=
  ∀ s : State, EngineInv s → (Successful s ↔ statusWord false s = 0x00000001#32)

/-! ### STATUS, DOUT and the register window (10 R27, R29; 20 R39-R43) -/

/-- 10 R27, R21, R23, R25; 60 R107: the layout of STATUS, field by field, with the code of every phase and of every cause; the phase
code 3 and the cause codes 4 to 7 are never produced. -/
def Obligations.StatusLayout : Prop :=
  ∀ (busy : Bool) (s : State),
    (statusWord busy s).extractLsb' 0 2 = (match s.phase with
      | .accepting => 0#2
      | .finalized => 1#2
      | .faulted => 2#2) ∧
    (statusWord busy s).getLsbD 2 = s.err ∧
    (statusWord busy s).extractLsb' 3 3 = (match s.cause with
      | .none => 0#3
      | .illegalCommand => 1#3
      | .useAfterFinalize => 2#3
      | .blockLength => 3#3) ∧
    (statusWord busy s).getLsbD 6 = busy ∧
    (statusWord busy s).extractLsb' 7 25 = 0#25 ∧
    (statusWord busy s).toNat = 64 * busy.toNat + 8 * s.cause.code.toNat + 4 * s.err.toNat + s.phase.code.toNat ∧
    (statusWord busy s).extractLsb' 0 2 ≠ 3#2 ∧ (statusWord busy s).extractLsb' 3 3 < 4#3

/-- 20 R40, 10 R27, R29: what each offset of the register window returns, and that a write to any offset but 0x00 has no effect and
raises no fault. The reads are between commands, so BUSY is 0, and so it is for reads listed with such a write (the model's choice:
DESIGN CHOICE, log entry 11). -/
def Obligations.RegisterWindowMap : Prop :=
  ∀ (s : State) (rest : List HostEvent),
    (∀ k, k < 16 → s.pending = .read (.window (4 * k) .word) :: rest →
      step s = .next { s with pending := rest, hostReads := s.hostReads ++
        [if k = 0 then 0#32 else if k = 1 then statusWord false s else (s.dout.toList.getD (k - 2) 0#32)] }) ∧
    (∀ k d during, 1 ≤ k → k < 16 → during.all readAllowed = true →
      s.pending = .write (.window (4 * k) .word d) during :: rest →
        step s = .next { s with
          pending := rest, hostReads := s.hostReads ++ during.map (fun r => readValue false r s) }) ∧
    readValue false .status s = statusWord false s ∧
    (∀ j : Fin 8, readValue false (.dout j) s = s.dout.toList.getD j.val 0#32) ∧
    ∀ k, k < 16 → readValue false (.window (4 * k) .word) s =
      if k = 0 then 0#32 else if k = 1 then statusWord false s else s.dout.toList.getD (k - 2) 0#32

/-- 20 R41, 00 R5: a narrow or misaligned access to the register window is refused; the model stops by name, and the refusal carries
the open parameter BUS_BAD_ACCESS. Alignment is that of the offset (the model's choice: DESIGN CHOICE, log entry 12). -/
def Obligations.NarrowOrMisalignedAccessIsRefused : Prop :=
  ∀ (s : State) (rest : List HostEvent) (offset : Nat) (size : AccessSize) (d : Word) (during : List HostRead),
    offset < 64 → (size ≠ .word ∨ offset % 4 ≠ 0) →
      (s.pending = .read (.window offset size) :: rest ∨ s.pending = .write (.window offset size d) during :: rest) →
        step s = .refused (.badBusAccess Config.busBadAccess)

/-- The model's choice (DESIGN CHOICE, log entry 6): an access at an offset outside the 64-byte window of 20 R40 faults. -/
def Obligations.AccessOutsideWindowFaults : Prop :=
  ∀ (s : State) (rest : List HostEvent) (offset : Nat) (size : AccessSize) (d : Word) (during : List HostRead),
    64 ≤ offset →
      (s.pending = .read (.window offset size) :: rest ∨ s.pending = .write (.window offset size d) during :: rest) →
        step s = .fault .outsideWindow

/-- 20 R42; 70 R130; 10 R27, R29: reads change no state of the core, and a read through a direct port between commands gives the
host STATUS with BUSY = 0, or the word of DOUT it names. -/
def Obligations.ReadsHaveNoSideEffects : Prop :=
  ∀ (s : State) (rest : List HostEvent),
    (∀ (t : State) (r : HostRead), s.pending = .read r :: rest → step s = .next t →
      t = { s with pending := rest, hostReads := t.hostReads }) ∧
    (s.pending = .read .status :: rest →
      step s = .next { s with pending := rest, hostReads := s.hostReads ++ [statusWord false s] }) ∧
    ∀ j : Fin 8, s.pending = .read (.dout j) :: rest →
      step s = .next { s with pending := rest, hostReads := s.hostReads ++ [s.dout.toList.getD j.val 0#32] }

/-- 20 R43, R40: reads that fall inside the BUSY window of a command return the values from before it, with BUSY = 1 in STATUS, in the
host's order, through the ports and at every offset of the register window, and then the command has its effect. -/
def Obligations.BusyWindowReadsPreCommandValues : Prop :=
  ∀ (s : State) (w : Word) (i : Instr) (during : List HostRead) (rest : List HostEvent),
    decode w = .ok i → during.all readAllowed = true →
    (s.pending = .write (.cmd w) during :: rest ∨ s.pending = .write (.window 0x00 .word w) during :: rest) →
      step s = exec i { s with
        pending := rest, pc := s.pc + 1, hostReads := s.hostReads ++ during.map (fun r => readValue true r s) } ∧
      readValue true .status s = statusWord false s ||| 0x40#32 ∧
      (∀ j : Fin 8, readValue true (.dout j) s = s.dout.toList.getD j.val 0#32) ∧
      ∀ k, k < 16 → readValue true (.window (4 * k) .word) s =
        if k = 0 then 0#32 else if k = 1 then statusWord false s ||| 0x40#32 else s.dout.toList.getD (k - 2) 0#32

/-- 10 R31: the host sees nothing of H, BUF and BITCOUNT: two states that agree on PHASE, ERR, CAUSE and DOUT answer any
sequence of reads alike, inside and outside a BUSY window. -/
def Obligations.HiddenStateIsInvisibleToReads : Prop :=
  ∀ (busy : Bool) (rs : List HostRead) (s₁ s₂ : State),
    s₁.phase = s₂.phase → s₁.err = s₂.err → s₁.cause = s₂.cause → s₁.dout = s₂.dout → s₁.hostReads = s₂.hostReads →
      (∀ t₁, hostReadAll busy rs s₁ = .next t₁ → ∃ t₂, hostReadAll busy rs s₂ = .next t₂ ∧ t₂.hostReads = t₁.hostReads) ∧
      (∀ f, hostReadAll busy rs s₁ = .fault f → hostReadAll busy rs s₂ = .fault f) ∧
      (∀ f, hostReadAll busy rs s₁ = .refused f → hostReadAll busy rs s₂ = .refused f)

/-- 70 R126, R134: hardware reset puts the core in the reset state; a reset while a command runs does the same, with no partial
effect, and a held command word is lost. What the host still does and has read stays (DEDUCED, log entry 3). -/
def Obligations.HardwareResetAbandonsEverything : Prop :=
  ∀ (s : State) (rest : List HostEvent),
    (s.pending = .reset :: rest → step s = .next { State.reset with pending := rest, hostReads := s.hostReads }) ∧
    ∀ w during held, during.all readAllowed = true → s.pending = .resetWhileBusy w during held :: rest →
      step s = .next { State.reset with
        pending := rest, hostReads := s.hostReads ++ during.map (fun r => readValue true r s) }

/-- 10 R29, 20 R39: the digest bytes of the eight words in state order, big-endian, are the bytes of the formula of 10 R29. -/
def Obligations.DigestBytesAreBigEndian : Prop :=
  ∀ x : Words8, (words8Bytes x).length = 32 ∧ ∀ k : Fin 32, (words8Bytes x)[k.val]? = some (digestByte x k) ∧
    (digestByte x k).toNat = (x.get (digestByteWord k)).toNat / 256 ^ (3 - k.val % 4) % 256

/-- 20 R38: the length field is the 64-bit count, most significant byte first. -/
def Obligations.LengthFieldIsBigEndian : Prop :=
  ∀ v : BitVec 64, (be64Bytes v).length = 8 ∧
    ∀ k, k < 8 → ((be64Bytes v).getD k 0#8).toNat = v.toNat / 256 ^ (7 - k) % 256

/-! ### The compression function (40 R61-R72; 41 R76-R84) -/

/-- 40 R61, R62, R65-R68: bit i of ROTR(n, x) is bit (i + n) mod 32 of x, bit i of SHR(n, x) is bit i + n of x or 0 where there is
none, and each sigma is bit by bit the exclusive or of its three terms. -/
def Obligations.RotatesShiftsAndSigmasByBit : Prop :=
  ∀ (x : Word) (i : Nat), i < 32 →
    (∀ n, 0 < n → n < 32 → (rotr n x).getLsbD i = x.getLsbD ((i + n) % 32) ∧
      (shr n x).getLsbD i = (decide (i + n < 32) && x.getLsbD (i + n))) ∧
    (bigSigma0 x).getLsbD i =
      Bool.xor (Bool.xor (x.getLsbD ((i + 2) % 32)) (x.getLsbD ((i + 13) % 32))) (x.getLsbD ((i + 22) % 32)) ∧
    (bigSigma1 x).getLsbD i =
      Bool.xor (Bool.xor (x.getLsbD ((i + 6) % 32)) (x.getLsbD ((i + 11) % 32))) (x.getLsbD ((i + 25) % 32)) ∧
    (smallSigma0 x).getLsbD i =
      Bool.xor (Bool.xor (x.getLsbD ((i + 7) % 32)) (x.getLsbD ((i + 18) % 32))) (decide (i < 29) && x.getLsbD (i + 3)) ∧
    (smallSigma1 x).getLsbD i =
      Bool.xor (Bool.xor (x.getLsbD ((i + 17) % 32)) (x.getLsbD ((i + 19) % 32))) (decide (i < 22) && x.getLsbD (i + 10))

/-- 40 R63, R64: each bit of Ch is y's bit where x's bit is 1 and z's where it is 0; each bit of Maj is the majority of the three. -/
def Obligations.ChooseAndMajorityByBit : Prop :=
  ∀ (x y z : Word) (i : Nat), i < 32 →
    (ch x y z).getLsbD i = (if x.getLsbD i then y.getLsbD i else z.getLsbD i) ∧
    (maj x y z).getLsbD i = decide (2 ≤ (x.getLsbD i).toNat + (y.getLsbD i).toNat + (z.getLsbD i).toNat)

/-- 40 R72: IV and K are the first 32 bits of the fractional parts of the square and cube roots of the first primes: with p the
prime and q its root's integer part, the entry c is the one number with (q·2^32 + c)^2 ≤ p·2^64 < (q·2^32 + c + 1)^2, and
likewise with cubes. -/
def Obligations.ConstantsAreRootsOfPrimes : Prop :=
  ∃ primes : List Nat, primes.length = 64 ∧ (∀ p, p ∈ primes ↔ Nat.Prime p ∧ p ≤ 311) ∧ primes.Pairwise (· < ·) ∧
    (∀ j : Fin 8, ∃ q, (q * 2 ^ 32 + (iv.get j).toNat) ^ 2 ≤ primes.getD j 0 * 2 ^ 64 ∧
      primes.getD j 0 * 2 ^ 64 < (q * 2 ^ 32 + (iv.get j).toNat + 1) ^ 2) ∧
    (∀ t, t < 64 → ∃ q, (q * 2 ^ 32 + (kAt t).toNat) ^ 3 ≤ primes.getD t 0 * 2 ^ 96 ∧
      primes.getD t 0 * 2 ^ 96 < (q * 2 ^ 32 + (kAt t).toNat + 1) ^ 3)

/-- 41 R76: word i of a 64-byte block is its bytes 4i..4i+3, the first the most significant. -/
def Obligations.BlockWordsAreBigEndian : Prop :=
  ∀ blk : List Byte, blk.length = 64 → (blockWords blk).length = 16 ∧ ∀ i, i < 16 →
    ((blockWords blk).getD i 0#32).toNat =
      (blk.getD (4 * i) 0#8).toNat * 2 ^ 24 + (blk.getD (4 * i + 1) 0#8).toNat * 2 ^ 16 +
      (blk.getD (4 * i + 2) 0#8).toNat * 2 ^ 8 + (blk.getD (4 * i + 3) 0#8).toNat

/-- 41 R77: the schedule has 64 words, the first sixteen are the block's, and each later one follows the recurrence. -/
def Obligations.ScheduleFollowsRecurrence : Prop :=
  ∀ m : List Word, m.length = 16 → (schedule m).length = 64 ∧
    (∀ t, t < 16 → (schedule m).getD t 0#32 = m.getD t 0#32) ∧
    ∀ t, 16 ≤ t → t < 64 → (schedule m).getD t 0#32 =
      smallSigma1 ((schedule m).getD (t - 2) 0#32) + (schedule m).getD (t - 7) 0#32 +
      smallSigma0 ((schedule m).getD (t - 15) 0#32) + (schedule m).getD (t - 16) 0#32

/-- 41 R78-R81: compress of a 64-byte block starts the working variables as a..h = H[0]..H[7], runs exactly the rounds 0..63 in
order, each by the formulas for T1 and T2 with all right-hand sides reading the old values, and adds the final working
variables to the input words. -/
def Obligations.CompressRunsSixtyFourRounds : Prop :=
  ∀ (x : Words8) (blk : List Byte), blk.length = 64 → ∃ v : Nat → Vars,
    v 0 = ⟨x.w0, x.w1, x.w2, x.w3, x.w4, x.w5, x.w6, x.w7⟩ ∧
    (∀ t, t < 64 → ∃ t1 t2 : Word,
      t1 = (v t).h + bigSigma1 (v t).e + ch (v t).e (v t).f (v t).g + kAt t + (schedule (blockWords blk)).getD t 0#32 ∧
      t2 = bigSigma0 (v t).a + maj (v t).a (v t).b (v t).c ∧
      v (t + 1) = ⟨t1 + t2, (v t).a, (v t).b, (v t).c, (v t).d + t1, (v t).e, (v t).f, (v t).g⟩) ∧
    compress x blk = some ⟨x.w0 + (v 64).a, x.w1 + (v 64).b, x.w2 + (v 64).c, x.w3 + (v 64).d,
      x.w4 + (v 64).e, x.w5 + (v 64).f, x.w6 + (v 64).g, x.w7 + (v 64).h⟩

/-- 41 R84: computing the schedule with a rolling window of sixteen words, W[t] in round t, gives the same compression function. -/
def Obligations.RollingWindowGivesSameCompression : Prop :=
  ∀ (x : Words8) (blk : List Byte), compressRolling x blk = compress x blk

/-! ### Whole sessions (42 R88-R96; 30 R54, R55; 60 R121) -/

/-- 42 R89: after a state as INIT leaves it, ADD_BYTES m ends, in as many steps as m has bytes, with H the compression of m's full
blocks, BUF the bytes after them, BITCOUNT = 8n and PHASE = ACCEPTING. The premise n < 2^61 is the rule's. -/
def Obligations.IngestionClosedForm : Prop :=
  ∀ (s : State) (m : List Byte) (rest : List HostEvent), m.length < 2 ^ 61 →
    s.h = iv → s.buf = [] → s.bitcount = 0#64 → s.phase = .accepting →
    s.pending = commandEvents (addBytesWords m) ++ rest →
      ∃ t x, Host.Core.run Sys2Proof.core m.length s = .next t ∧ hashBlocks iv (fullBlocks m) = some x ∧
        t.h = x ∧ t.buf = lastBytes m ∧ t.bitcount.toNat = 8 * m.length ∧ t.phase = .accepting ∧
        t.pc = s.pc + m.length ∧ t.pending = rest ∧ t.dout = s.dout ∧ t.err = s.err ∧ t.cause = s.cause

/-- 42 R92: from any state, INIT, ADD_BYTES m, DIGEST compress exactly the blocks of the padded message, whose length is a
multiple of 64, and DOUT is the result. The identity of that result with FIPS 180-4 SHA-256 is not stated here. -/
def Obligations.SessionHashesThePaddedMessage : Prop :=
  ∀ (s : State) (m : List Byte) (rest : List HostEvent), m.length < 2 ^ 61 →
    s.pending = commandEvents (encode .init :: addBytesWords m ++ [encode .digest]) ++ rest →
      (paddedMessage m).length % 64 = 0 ∧ (m.length + 1 + padZeros m.length) % 64 = 56 ∧
      (∀ k, (m.length + 1 + k) % 64 = 56 → padZeros m.length ≤ k) ∧
      runBlocks (m.length + 2) s = fullBlocks (paddedMessage m) ∧
      ∃ t x, Host.Core.run Sys2Proof.core (m.length + 2) s = .next t ∧
        hashBlocks iv (fullBlocks (paddedMessage m)) = some x ∧ t.dout = x ∧ t.h = x ∧ t.phase = .finalized ∧
        t.buf = [] ∧ t.err = s.err ∧ t.cause = s.cause ∧ t.pending = rest

/-- 70 R136: from any state, the steps of INIT, ADD_BYTES m, DIGEST perform n div 64 + 1 + [n mod 64 ≥ 56] compressions for a message
of n bytes, which is the number of blocks of the padded message; the steps before DIGEST perform n div 64 of them. -/
def Obligations.SessionBlockCount : Prop :=
  ∀ (s : State) (m : List Byte) (rest : List HostEvent),
    s.pending = commandEvents (encode .init :: addBytesWords m ++ [encode .digest]) ++ rest →
      runCompressions (m.length + 1) s = m.length / 64 ∧
      runCompressions (m.length + 2) s = m.length / 64 + 1 + (if 56 ≤ m.length % 64 then 1 else 0) ∧
      (fullBlocks (paddedMessage m)).length = runCompressions (m.length + 2) s ∧
      (fullBlocks (paddedMessage m)).flatten = paddedMessage m

/-- 42 R96: the digest of a session depends only on its message: two sessions of one message, begun in any two states, end with
the same DOUT, H, BUF, BITCOUNT and PHASE, whichever way the command words are delivered (port or register window) and whatever
the host reads in their BUSY windows. -/
def Obligations.DigestDependsOnlyOnMessage : Prop :=
  ∀ (s₁ s₂ t₁ t₂ : State) (m : List Byte) (es₁ es₂ rest₁ rest₂ : List HostEvent),
    es₁.map deliveredWord = (encode .init :: addBytesWords m ++ [encode .digest]).map some →
    es₂.map deliveredWord = (encode .init :: addBytesWords m ++ [encode .digest]).map some →
    s₁.pending = es₁ ++ rest₁ → s₂.pending = es₂ ++ rest₂ →
    Host.Core.run Sys2Proof.core (m.length + 2) s₁ = .next t₁ →
    Host.Core.run Sys2Proof.core (m.length + 2) s₂ = .next t₂ →
      t₁.dout = t₂.dout ∧ t₁.h = t₂.h ∧ t₁.buf = t₂.buf ∧ t₁.bitcount = t₂.bitcount ∧ t₁.phase = t₂.phase

/-- 30 R54: the assembler never produces an illegal word, and an operand over 255, of ADD_BYTE or anywhere in
the sequence of ADD_BYTES (30 R55), is an assembly error, in a line and in a text. -/
def Obligations.AssemblerNeverEmitsIllegalWord : Prop :=
  (∀ (text : List Char) (ws : List Word), assembleText text = some ws → ∀ w ∈ ws, legal w = true) ∧
  (∀ v, 255 < v → ∀ (before after : List AsmLine), assemble (before ++ .addByte v :: after) = none) ∧
  (∀ v vs, v ∈ vs → 255 < v → ∀ (before after : List AsmLine), assemble (before ++ .addBytes vs :: after) = none) ∧
  ∀ (text : List Char) (ls : List (List AsmLine)) (l : AsmLine), (splitLines [] text).mapM parseLine = some ls →
    l ∈ ls.flatten → l.wf = false → assembleText text = none

/-- 30 R55, 42 R88: ADD_BYTES is one ADD_BYTE per element in order, an empty sequence is no command, and splitting a sequence gives
the same command words. -/
def Obligations.AddBytesChunkingGivesSameWords : Prop :=
  (∀ m : List Byte, assemble [.addBytes (m.map BitVec.toNat)] = some (addBytesWords m)) ∧
  assemble [.addBytes []] = some [] ∧
  ∀ (u v : List Nat) (before after : List AsmLine),
    assemble (before ++ .addBytes (u ++ v) :: after) = assemble (before ++ .addBytes u :: .addBytes v :: after)

/-- 60 R121, 20 R40: a step or a bus access of one instance leaves every other instance as it is (60 R121). An access that answers
reached an instance whose 64-byte window holds the address, at the offset from its SHA_BASE (20 R40). The last clause, that an
access to an address in one window alone answers wherever that instance answers at the offset, for any SHA_BASE and any natural
number as address, is the model's choice and no rule of the spec: alignment is judged by the offset (DESIGN CHOICE, log entry 12:
unsafe where SHA_BASE is no multiple of 4) and a bus address has no width (DESIGN CHOICE, log entry 6). -/
def Obligations.InstancesAreIndependent : Prop :=
  ∀ (k : Nat) (p q : Platform),
    (p.stepCore k = .next q → q.cores.length = p.cores.length ∧
      (∃ s t, p.cores[k]? = some s ∧ step s = .next t ∧ q.cores[k]? = some t) ∧
      ∀ j, j ≠ k → q.cores[j]? = p.cores[j]?) ∧
    (∀ addr event, p.access addr event = .next q →
      ∃ j, (Config.shaBase j ≤ addr ∧ addr < Config.shaBase j + 64) ∧ q.cores.length = p.cores.length ∧
        (∃ s t, p.cores[j]? = some s ∧ hostEvent (event (addr - Config.shaBase j)) s = .next t ∧ q.cores[j]? = some t) ∧
        ∀ l, l ≠ j → q.cores[l]? = p.cores[l]?) ∧
    ∀ addr event s t, p.cores[k]? = some s →
      (∀ l, l < p.cores.length → ((Config.shaBase l ≤ addr ∧ addr < Config.shaBase l + 64) ↔ l = k)) →
      hostEvent (event (addr - Config.shaBase k)) s = .next t → p.access addr event = .next { cores := p.cores.set k t }
end

