-- ==== Sys2Proof/Laws/Compress.lean ====
section
/-! SUPPORT. Spec lemmas of the byte sequences and of the compression function: lengths, and when compress answers. -/

namespace Sys2Proof.Machine

@[simp] theorem zeros_length (n : Nat) : (zeros n).length = n := by simp [zeros]

@[simp] theorem be64Bytes_length (v : BitVec 64) : (be64Bytes v).length = 8 := rfl

@[simp] theorem be32Bytes_length (w : Word) : (be32Bytes w).length = 4 := rfl

@[simp] theorem blockWords_length (blk : List Byte) : (blockWords blk).length = 16 := by simp [blockWords]

@[simp] theorem roundConstants_length : roundConstants.length = 64 := rfl

@[simp] theorem expandSchedule_length (n : Nat) (r : List Word) : (expandSchedule n r).length = n + r.length := by
  induction n generalizing r with
  | zero => simp [expandSchedule]
  | succ n ih => simp [expandSchedule, ih]; omega

@[simp] theorem schedule_length (m : List Word) : (schedule m).length = 48 + m.length := by simp [schedule]

/-- compress answers exactly for a 64-byte block (41 R81, R82). Take the answer as a variable `x` from here: a proof that carries
the 64 rounds along as a term is slow to check. -/
theorem compress_of_length {blk : List Byte} (h : Words8) (hl : blk.length = 64) : ∃ x, compress h blk = some x :=
  ⟨_, by rw [compress, if_pos hl]⟩

/-- compress answers nothing for any other block (41 R82). -/
theorem compress_of_length_ne {blk : List Byte} (h : Words8) (hl : blk.length ≠ 64) : compress h blk = none := by
  rw [compress, if_neg hl]

end Sys2Proof.Machine
end

