-- ==== Sys2Proof/Laws/State.lean ====
section
/-! SUPPORT. One lemma per field for each named update of the state, so that no later proof unfolds a record update. -/

namespace Sys2Proof.Machine

/-! ### raiseFault: fault entry (60 R109, R110) -/

@[simp] theorem raiseFault_h (c : Cause) (s : State) : (raiseFault c s).h = s.h := rfl
@[simp] theorem raiseFault_buf (c : Cause) (s : State) : (raiseFault c s).buf = s.buf := rfl
@[simp] theorem raiseFault_bitcount (c : Cause) (s : State) : (raiseFault c s).bitcount = s.bitcount := rfl
@[simp] theorem raiseFault_phase (c : Cause) (s : State) : (raiseFault c s).phase = .faulted := rfl
@[simp] theorem raiseFault_err (c : Cause) (s : State) : (raiseFault c s).err = true := rfl
@[simp] theorem raiseFault_cause (c : Cause) (s : State) : (raiseFault c s).cause = if s.err then s.cause else c := rfl
@[simp] theorem raiseFault_dout (c : Cause) (s : State) : (raiseFault c s).dout = s.dout := rfl
@[simp] theorem raiseFault_pc (c : Cause) (s : State) : (raiseFault c s).pc = s.pc := rfl
@[simp] theorem raiseFault_pending (c : Cause) (s : State) : (raiseFault c s).pending = s.pending := rfl
@[simp] theorem raiseFault_hostReads (c : Cause) (s : State) : (raiseFault c s).hostReads = s.hostReads := rfl

/-! ### constructEngine: construction (42 R86) -/

@[simp] theorem constructEngine_h (s : State) : (constructEngine s).h = iv := rfl
@[simp] theorem constructEngine_buf (s : State) : (constructEngine s).buf = [] := rfl
@[simp] theorem constructEngine_bitcount (s : State) : (constructEngine s).bitcount = 0#64 := rfl
@[simp] theorem constructEngine_phase (s : State) : (constructEngine s).phase = .accepting := rfl
@[simp] theorem constructEngine_err (s : State) : (constructEngine s).err = s.err := rfl
@[simp] theorem constructEngine_cause (s : State) : (constructEngine s).cause = s.cause := rfl
@[simp] theorem constructEngine_dout (s : State) : (constructEngine s).dout = Words8.zero := rfl
@[simp] theorem constructEngine_pc (s : State) : (constructEngine s).pc = s.pc := rfl
@[simp] theorem constructEngine_pending (s : State) : (constructEngine s).pending = s.pending := rfl
@[simp] theorem constructEngine_hostReads (s : State) : (constructEngine s).hostReads = s.hostReads := rfl

/-! ### hardReset: hardware reset (70 R126) -/

@[simp] theorem hardReset_h (s : State) : (hardReset s).h = iv := rfl
@[simp] theorem hardReset_buf (s : State) : (hardReset s).buf = [] := rfl
@[simp] theorem hardReset_bitcount (s : State) : (hardReset s).bitcount = 0#64 := rfl
@[simp] theorem hardReset_phase (s : State) : (hardReset s).phase = .accepting := rfl
@[simp] theorem hardReset_err (s : State) : (hardReset s).err = false := rfl
@[simp] theorem hardReset_cause (s : State) : (hardReset s).cause = .none := rfl
@[simp] theorem hardReset_dout (s : State) : (hardReset s).dout = Words8.zero := rfl
@[simp] theorem hardReset_pc (s : State) : (hardReset s).pc = 0 := rfl
@[simp] theorem hardReset_pending (s : State) : (hardReset s).pending = s.pending := rfl
@[simp] theorem hardReset_hostReads (s : State) : (hardReset s).hostReads = s.hostReads := rfl

/-! ### record: reading back a word (70 R130) -/

@[simp] theorem record_h (v : Word) (s : State) : (record v s).h = s.h := rfl
@[simp] theorem record_buf (v : Word) (s : State) : (record v s).buf = s.buf := rfl
@[simp] theorem record_bitcount (v : Word) (s : State) : (record v s).bitcount = s.bitcount := rfl
@[simp] theorem record_phase (v : Word) (s : State) : (record v s).phase = s.phase := rfl
@[simp] theorem record_err (v : Word) (s : State) : (record v s).err = s.err := rfl
@[simp] theorem record_cause (v : Word) (s : State) : (record v s).cause = s.cause := rfl
@[simp] theorem record_dout (v : Word) (s : State) : (record v s).dout = s.dout := rfl
@[simp] theorem record_pc (v : Word) (s : State) : (record v s).pc = s.pc := rfl
@[simp] theorem record_pending (v : Word) (s : State) : (record v s).pending = s.pending := rfl
@[simp] theorem record_hostReads (v : Word) (s : State) : (record v s).hostReads = s.hostReads ++ [v] := rfl

/-! ### acceptCommand: accepting a command (10 R20) -/

@[simp] theorem acceptCommand_h (s : State) : (acceptCommand s).h = s.h := rfl
@[simp] theorem acceptCommand_buf (s : State) : (acceptCommand s).buf = s.buf := rfl
@[simp] theorem acceptCommand_bitcount (s : State) : (acceptCommand s).bitcount = s.bitcount := rfl
@[simp] theorem acceptCommand_phase (s : State) : (acceptCommand s).phase = s.phase := rfl
@[simp] theorem acceptCommand_err (s : State) : (acceptCommand s).err = s.err := rfl
@[simp] theorem acceptCommand_cause (s : State) : (acceptCommand s).cause = s.cause := rfl
@[simp] theorem acceptCommand_dout (s : State) : (acceptCommand s).dout = s.dout := rfl
@[simp] theorem acceptCommand_pc (s : State) : (acceptCommand s).pc = s.pc + 1 := rfl
@[simp] theorem acceptCommand_pending (s : State) : (acceptCommand s).pending = s.pending := rfl
@[simp] theorem acceptCommand_hostReads (s : State) : (acceptCommand s).hostReads = s.hostReads := rfl

/-! ### publishDigest: the end of DIGEST (42 R90) -/

@[simp] theorem publishDigest_h (s : State) : (publishDigest s).h = s.h := rfl
@[simp] theorem publishDigest_buf (s : State) : (publishDigest s).buf = s.buf := rfl
@[simp] theorem publishDigest_bitcount (s : State) : (publishDigest s).bitcount = s.bitcount := rfl
@[simp] theorem publishDigest_phase (s : State) : (publishDigest s).phase = .finalized := rfl
@[simp] theorem publishDigest_err (s : State) : (publishDigest s).err = s.err := rfl
@[simp] theorem publishDigest_cause (s : State) : (publishDigest s).cause = s.cause := rfl
@[simp] theorem publishDigest_dout (s : State) : (publishDigest s).dout = s.h := rfl
@[simp] theorem publishDigest_pc (s : State) : (publishDigest s).pc = s.pc := rfl
@[simp] theorem publishDigest_pending (s : State) : (publishDigest s).pending = s.pending := rfl
@[simp] theorem publishDigest_hostReads (s : State) : (publishDigest s).hostReads = s.hostReads := rfl

/-! ### takeEvent: taking the next host event -/

@[simp] theorem takeEvent_h (rest : List HostEvent) (s : State) : (takeEvent rest s).h = s.h := rfl
@[simp] theorem takeEvent_buf (rest : List HostEvent) (s : State) : (takeEvent rest s).buf = s.buf := rfl
@[simp] theorem takeEvent_bitcount (rest : List HostEvent) (s : State) : (takeEvent rest s).bitcount = s.bitcount := rfl
@[simp] theorem takeEvent_phase (rest : List HostEvent) (s : State) : (takeEvent rest s).phase = s.phase := rfl
@[simp] theorem takeEvent_err (rest : List HostEvent) (s : State) : (takeEvent rest s).err = s.err := rfl
@[simp] theorem takeEvent_cause (rest : List HostEvent) (s : State) : (takeEvent rest s).cause = s.cause := rfl
@[simp] theorem takeEvent_dout (rest : List HostEvent) (s : State) : (takeEvent rest s).dout = s.dout := rfl
@[simp] theorem takeEvent_pc (rest : List HostEvent) (s : State) : (takeEvent rest s).pc = s.pc := rfl
@[simp] theorem takeEvent_pending (rest : List HostEvent) (s : State) : (takeEvent rest s).pending = rest := rfl
@[simp] theorem takeEvent_hostReads (rest : List HostEvent) (s : State) : (takeEvent rest s).hostReads = s.hostReads := rfl

/-! ### placeCommand: placing a command word as the next event -/

@[simp] theorem placeCommand_h (w : Word) (s : State) : (placeCommand w s).h = s.h := rfl
@[simp] theorem placeCommand_buf (w : Word) (s : State) : (placeCommand w s).buf = s.buf := rfl
@[simp] theorem placeCommand_bitcount (w : Word) (s : State) : (placeCommand w s).bitcount = s.bitcount := rfl
@[simp] theorem placeCommand_phase (w : Word) (s : State) : (placeCommand w s).phase = s.phase := rfl
@[simp] theorem placeCommand_err (w : Word) (s : State) : (placeCommand w s).err = s.err := rfl
@[simp] theorem placeCommand_cause (w : Word) (s : State) : (placeCommand w s).cause = s.cause := rfl
@[simp] theorem placeCommand_dout (w : Word) (s : State) : (placeCommand w s).dout = s.dout := rfl
@[simp] theorem placeCommand_pc (w : Word) (s : State) : (placeCommand w s).pc = s.pc := rfl
@[simp] theorem placeCommand_pending (w : Word) (s : State) : (placeCommand w s).pending = .write (.cmd w) [] :: s.pending := rfl
@[simp] theorem placeCommand_hostReads (w : Word) (s : State) : (placeCommand w s).hostReads = s.hostReads := rfl

end Sys2Proof.Machine
end

