-- ==== Sys2Proof/Laws/Ops.lean ====
section
/-! SUPPORT. Spec lemmas of the shared operations: what each can do, said once. -/

namespace Sys2Proof.Machine

/-! ### Sequencing -/

@[simp] theorem andThen_next (s : State) (k : State → Host.Outcome State Fault Refusal) : andThen (.next s) k = k s := rfl

/-- If a sequence answers a next state, its first part did. -/
theorem andThen_eq_next {o : Host.Outcome State Fault Refusal} {k : State → Host.Outcome State Fault Refusal} {t : State}
    (ht : andThen o k = .next t) : ∃ s, o = .next s ∧ k s = .next t := by
  cases o with
  | next s => exact ⟨s, rfl, ht⟩
  | fault f => cases ht
  | refused r => cases ht

/-! ### The prologue (60 R113) -/

theorem whenAccepting_accepting {s : State} (body : State → State) (hp : s.phase = .accepting) :
    whenAccepting body s = body s := by simp [whenAccepting, hp]

theorem whenAccepting_finalized {s : State} (body : State → State) (hp : s.phase = .finalized) :
    whenAccepting body s = raiseFault .useAfterFinalize s := by simp [whenAccepting, hp]

theorem whenAccepting_faulted {s : State} (body : State → State) (hp : s.phase = .faulted) :
    whenAccepting body s = s := by simp [whenAccepting, hp]

theorem rejectIllegal_faulted {s : State} (hp : s.phase = .faulted) : rejectIllegal s = s := by simp [rejectIllegal, hp]

theorem rejectIllegal_of_ne_faulted {s : State} (hp : s.phase ≠ .faulted) :
    rejectIllegal s = raiseFault .illegalCommand s := by
  unfold rejectIllegal
  split
  · exact absurd ‹_› hp
  · rfl
  · rfl

/-! ### Work and commit (20 R36, 42 R87, R90) -/

/-- compressBuf replaces the hash state, empties the buffer and records the block (42 R87). -/
theorem Work.compressBuf_of_some {k : Work} {x : Words8} (hx : compress k.h k.buf = some x) :
    k.compressBuf = some { k with h := x, buf := [], blocks := k.blocks ++ [k.buf] } := by
  rw [Work.compressBuf, hx]

theorem Work.compressBuf_of_none {k : Work} (hx : compress k.h k.buf = none) : k.compressBuf = none := by
  rw [Work.compressBuf, hx]

@[simp] theorem commit_some (publish : State → State) (k : Work) (s : State) :
    commit publish (some k) s = publish { s with h := k.h, buf := k.buf, bitcount := k.bitcount } := rfl

@[simp] theorem commit_none (publish : State → State) (s : State) :
    commit publish none s = raiseFault .blockLength s := rfl

/-! ### The bodies of ADD_BYTE and DIGEST -/

/-- ADD_BYTE that does not fill the buffer compresses nothing (42 R87). -/
theorem addByteWork_of_ne {s : State} (b : Byte) (hl : s.buf.length ≠ 63) :
    addByteWork b s = some { h := s.h, buf := s.buf ++ [b], bitcount := s.bitcount + 8#64, blocks := [] } := by
  simp [addByteWork, Work.ofState, Work.append, hl]

/-- ADD_BYTE that fills the buffer compresses it (42 R87). -/
theorem addByteWork_of_eq {s : State} (b : Byte) (hl : s.buf.length = 63) :
    ∃ x, compress s.h (s.buf ++ [b]) = some x ∧ addByteWork b s = some {
      h := x, buf := [], bitcount := s.bitcount + 8#64, blocks := [s.buf ++ [b]] } := by
  have hlen : (s.buf ++ [b]).length = 64 := by simp [hl]
  obtain ⟨x, hx⟩ := compress_of_length s.h hlen
  refine ⟨x, hx, ?_⟩
  simp only [addByteWork, Work.ofState, Work.append, hlen, if_true]
  rw [Work.compressBuf_of_some (x := x) hx]
  rfl

/-- The one padded block of a DIGEST with at most 55 buffered bytes (42 R91). -/
def oneBlock (s : State) : List Byte := s.buf ++ [padMarker] ++ zeros (55 - s.buf.length) ++ be64Bytes s.bitcount

/-- The first padded block of a DIGEST with 56 or more buffered bytes (42 R91). -/
def firstBlock (s : State) : List Byte := s.buf ++ [padMarker] ++ zeros (63 - s.buf.length)

/-- The second padded block of such a DIGEST (42 R91). -/
def secondBlock (s : State) : List Byte := zeros 56 ++ be64Bytes s.bitcount

theorem oneBlock_length {s : State} (hl : s.buf.length ≤ 55) : (oneBlock s).length = 64 := by
  simp [oneBlock]; omega

theorem firstBlock_length {s : State} (hl : s.buf.length ≤ 63) : (firstBlock s).length = 64 := by
  simp [firstBlock]; omega

theorem secondBlock_length (s : State) : (secondBlock s).length = 64 := by simp [secondBlock]

/-- DIGEST with at most 55 buffered bytes compresses one block (42 R91). -/
theorem digestWork_short {s : State} (hl : s.buf.length ≤ 55) :
    ∃ x, compress s.h (oneBlock s) = some x ∧ digestWork s = some {
      h := x, buf := [], bitcount := s.bitcount, blocks := [oneBlock s] } := by
  have h56 : ¬ 56 < s.buf.length + 1 := by omega
  have hz : 56 - (s.buf.length + 1) = 55 - s.buf.length := by omega
  obtain ⟨x, hx⟩ := compress_of_length s.h (oneBlock_length hl)
  refine ⟨x, hx, ?_⟩
  unfold oneBlock at hx ⊢
  simp only [digestWork, padMarkerWork, padLengthWork, Work.ofState, Work.append, List.length_append,
    List.length_singleton, h56, if_false, hz]
  rw [Work.compressBuf_of_some (x := x) hx]
  rfl

/-- DIGEST with 56 to 63 buffered bytes compresses two blocks (42 R91). -/
theorem digestWork_long {s : State} (h56 : 56 ≤ s.buf.length) (h63 : s.buf.length ≤ 63) :
    ∃ x y, compress s.h (firstBlock s) = some x ∧ compress x (secondBlock s) = some y ∧ digestWork s = some {
      h := y, buf := [], bitcount := s.bitcount, blocks := [firstBlock s, secondBlock s] } := by
  have hlt : 56 < s.buf.length + 1 := by omega
  have hz : 64 - (s.buf.length + 1) = 63 - s.buf.length := by omega
  obtain ⟨x, hx⟩ := compress_of_length s.h (firstBlock_length h63)
  obtain ⟨y, hy⟩ := compress_of_length x (secondBlock_length s)
  refine ⟨x, y, hx, hy, ?_⟩
  unfold firstBlock at hx ⊢
  unfold secondBlock at hy ⊢
  simp only [digestWork, padMarkerWork, padLengthWork, Work.ofState, Work.append, List.length_append,
    List.length_singleton, hlt, if_true, hz]
  rw [Work.compressBuf_of_some (x := x) hx]
  simp only [List.length_nil, Nat.sub_zero, List.nil_append]
  rw [Work.compressBuf_of_some (x := y) hy]
  rfl

/-- DIGEST with more than 63 buffered bytes meets a block that is too long (41 R82). -/
theorem digestWork_too_long {s : State} (hl : 64 ≤ s.buf.length) : digestWork s = none := by
  have hlt : 56 < s.buf.length + 1 := by omega
  have hne : (s.buf ++ [padMarker] ++ zeros (64 - (s.buf.length + 1))).length ≠ 64 := by simp; omega
  simp only [digestWork, padMarkerWork, Work.ofState, Work.append, List.length_append, List.length_singleton, hlt, if_true]
  rw [Work.compressBuf_of_none (compress_of_length_ne _ hne)]

end Sys2Proof.Machine
end

