-- ==== Sys2Proof/Laws/Engine.lean ====
section
/-! SUPPORT. What each command's meaning reduces to in each phase (60 R113), for the provers to cite. -/

namespace Sys2Proof.Machine

theorem exec_init (s : State) : exec .init s = .next (constructEngine s) := rfl

theorem exec_addByte_accepting {s : State} (b : Byte) (hp : s.phase = .accepting) :
    exec (.addByte b) s = .next (commit id (addByteWork b s) s) := by
  rw [exec, execAddByte, whenAccepting_accepting _ hp]

theorem exec_digest_accepting {s : State} (hp : s.phase = .accepting) :
    exec .digest s = .next (commit publishDigest (digestWork s) s) := by
  rw [exec, execDigest, whenAccepting_accepting _ hp]

theorem exec_finalized {i : Instr} {s : State} (hi : i ≠ .init) (hp : s.phase = .finalized) :
    exec i s = .next (raiseFault .useAfterFinalize s) := by
  cases i with
  | init => exact absurd rfl hi
  | addByte b => rw [exec, execAddByte, whenAccepting_finalized _ hp]
  | digest => rw [exec, execDigest, whenAccepting_finalized _ hp]

theorem exec_faulted {i : Instr} {s : State} (hi : i ≠ .init) (hp : s.phase = .faulted) : exec i s = .next s := by
  cases i with
  | init => exact absurd rfl hi
  | addByte b => rw [exec, execAddByte, whenAccepting_faulted _ hp]
  | digest => rw [exec, execDigest, whenAccepting_faulted _ hp]

/-- Everything the body of ADD_BYTE can leave, with the compressed state as a variable: nothing but the buffer and the count
changes, or the full block is compressed (42 R87). -/
theorem commit_addByteWork_cases (b : Byte) (s : State) :
    (s.buf.length ≠ 63 ∧
      commit id (addByteWork b s) s = { s with buf := s.buf ++ [b], bitcount := s.bitcount + 8#64 }) ∨
    (s.buf.length = 63 ∧ ∃ x, compress s.h (s.buf ++ [b]) = some x ∧
      commit id (addByteWork b s) s = { s with h := x, buf := [], bitcount := s.bitcount + 8#64 }) := by
  by_cases hl : s.buf.length = 63
  · obtain ⟨x, hx, hw⟩ := addByteWork_of_eq b hl
    exact .inr ⟨hl, x, hx, by rw [hw]; rfl⟩
  · exact .inl ⟨hl, by rw [addByteWork_of_ne b hl]; rfl⟩

/-- Everything the body of DIGEST can leave, with the digest as a variable: the digest is published, or a buffer of more than 63
bytes meets BLOCK_LENGTH (42 R90, 60 R112). -/
theorem commit_digestWork_cases (s : State) :
    (s.buf.length ≤ 63 ∧ ∃ x,
      commit publishDigest (digestWork s) s = { s with h := x, buf := [], dout := x, phase := .finalized }) ∨
    (64 ≤ s.buf.length ∧ commit publishDigest (digestWork s) s = raiseFault .blockLength s) := by
  rcases Nat.lt_or_ge s.buf.length 64 with h63 | h64
  · refine .inl ⟨by omega, ?_⟩
    rcases Nat.lt_or_ge s.buf.length 56 with h55 | h56
    · obtain ⟨x, -, hw⟩ := digestWork_short (show s.buf.length ≤ 55 by omega)
      exact ⟨x, by rw [hw]; rfl⟩
    · obtain ⟨-, y, -, -, hw⟩ := digestWork_long h56 (show s.buf.length ≤ 63 by omega)
      exact ⟨y, by rw [hw]; rfl⟩
  · exact .inr ⟨h64, by rw [digestWork_too_long h64]; rfl⟩

end Sys2Proof.Machine
end

