-- ==== Sys2Proof/Laws/HostPort.lean ====
section
/-! SUPPORT. Spec lemmas of the host's side and of the step: what an access, a command word and a step can do, each said once. -/

namespace Sys2Proof.Machine

open Sys2Proof.Safety

/-! ### Window accesses (20 R40, R41) -/

theorem windowAccess_allowed {offset : Nat} (k : State → Host.Outcome State Fault Refusal) (s : State)
    (h64 : offset < 64) (h4 : offset % 4 = 0) : windowAccess offset .word k s = k s := by
  have : ¬ 64 ≤ offset := by omega
  simp [windowAccess, this, h4]

theorem windowAccess_outside {offset : Nat} (size : AccessSize) (k : State → Host.Outcome State Fault Refusal) (s : State)
    (h64 : 64 ≤ offset) : windowAccess offset size k s = .fault .outsideWindow := by simp [windowAccess, h64]

theorem windowAccess_bad {offset : Nat} {size : AccessSize} (k : State → Host.Outcome State Fault Refusal) (s : State)
    (h64 : offset < 64) (hb : size ≠ .word ∨ offset % 4 ≠ 0) :
    windowAccess offset size k s = .refused (.badBusAccess Config.busBadAccess) := by
  have : ¬ 64 ≤ offset := by omega
  simp only [windowAccess, this, if_false]
  rw [if_pos hb]

/-- An access that goes on is an aligned word access inside the window. -/
theorem windowAccess_eq_next {offset : Nat} {size : AccessSize} {k : State → Host.Outcome State Fault Refusal} {s t : State}
    (ht : windowAccess offset size k s = .next t) :
    offset < 64 ∧ offset % 4 = 0 ∧ size = .word ∧ k s = .next t := by
  unfold windowAccess at ht
  split at ht
  · cases ht
  · split at ht
    · cases ht
    · rename_i h64 hbad
      simp only [not_or, not_not] at hbad
      exact ⟨by omega, hbad.2, hbad.1, ht⟩

/-! ### Reads (20 R42, R43) -/

@[simp] theorem statusWord_record (busy : Bool) (v : Word) (s : State) : statusWord busy (record v s) = statusWord busy s := rfl

@[simp] theorem windowWord_record (busy : Bool) (offset : Nat) (v : Word) (s : State) :
    windowWord busy offset (record v s) = windowWord busy offset s := by
  unfold windowWord
  split <;> rfl

@[simp] theorem readValue_record (busy : Bool) (r : HostRead) (v : Word) (s : State) :
    readValue busy r (record v s) = readValue busy r s := by
  cases r with
  | status => rfl
  | dout i => rfl
  | window offset size => simp [readValue]

/-- A read that answers is an allowed one, and it only records its value. -/
theorem hostRead_eq_next {busy : Bool} {r : HostRead} {s t : State} (ht : hostRead busy r s = .next t) :
    readAllowed r = true ∧ t = record (readValue busy r s) s := by
  cases r with
  | status => exact ⟨rfl, (Host.Outcome.next.inj ht).symm⟩
  | dout i => exact ⟨rfl, (Host.Outcome.next.inj ht).symm⟩
  | window offset size =>
    obtain ⟨h64, h4, hsize, hk⟩ := windowAccess_eq_next ht
    exact ⟨by simp [readAllowed, h64, h4, hsize], (Host.Outcome.next.inj hk).symm⟩

theorem hostRead_allowed {r : HostRead} (busy : Bool) (s : State) (hr : readAllowed r = true) :
    hostRead busy r s = .next (record (readValue busy r s) s) := by
  cases r with
  | status => rfl
  | dout i => rfl
  | window offset size =>
    simp only [readAllowed, decide_eq_true_eq] at hr
    obtain ⟨h64, h4, rfl⟩ := hr
    rw [hostRead, windowAccess_allowed _ s h64 h4]

/-- The state after reads that answered the words `vs`. -/
def withReads (vs : List Word) (s : State) : State := { s with hostReads := s.hostReads ++ vs }

@[simp] theorem withReads_nil (s : State) : withReads [] s = s := by simp [withReads]

theorem withReads_record (v : Word) (vs : List Word) (s : State) :
    withReads vs (record v s) = withReads (v :: vs) s := by simp [withReads, record]

/-- Reads that answer are all allowed, and only record their values, in order. -/
theorem hostReadAll_eq_next {busy : Bool} {rs : List HostRead} {s t : State} (ht : hostReadAll busy rs s = .next t) :
    rs.all readAllowed = true ∧ t = withReads (rs.map (fun r => readValue busy r s)) s := by
  induction rs generalizing s with
  | nil => exact ⟨rfl, by simpa [hostReadAll] using ht.symm⟩
  | cons r rest ih =>
    obtain ⟨s', hr, hrest⟩ := andThen_eq_next ht
    obtain ⟨hallowed, rfl⟩ := hostRead_eq_next hr
    obtain ⟨hall, rfl⟩ := ih hrest
    exact ⟨by simp [hallowed, hall], by simp [withReads_record]⟩

theorem hostReadAll_allowed {rs : List HostRead} (busy : Bool) (s : State) (hall : rs.all readAllowed = true) :
    hostReadAll busy rs s = .next (withReads (rs.map (fun r => readValue busy r s)) s) := by
  induction rs generalizing s with
  | nil => simp [hostReadAll]
  | cons r rest ih =>
    simp only [List.all_cons, Bool.and_eq_true] at hall
    simp [hostReadAll, hostRead_allowed busy s hall.1, ih _ hall.2, withReads_record]

/-! ### Command words (60 R113) -/

theorem executeWord_of_ok {w : Word} {i : Instr} (s : State) (hw : decode w = .ok i) : executeWord w s = exec i s := by
  simp [executeWord, hw]

theorem executeWord_of_error {w : Word} {e : IllegalWord} (s : State) (hw : decode w = .error e) :
    executeWord w s = .next (rejectIllegal s) := by simp [executeWord, hw]

/-- Everything a command word can do. -/
theorem executeWord_cases {w : Word} {s t : State} (ht : executeWord w s = .next t) :
    (decode w = .ok .init ∧ t = constructEngine s) ∨
    (∃ b, decode w = .ok (.addByte b) ∧ s.phase = .accepting ∧ t = commit id (addByteWork b s) s) ∨
    (decode w = .ok .digest ∧ s.phase = .accepting ∧ t = commit publishDigest (digestWork s) s) ∨
    (∃ i, decode w = .ok i ∧ i ≠ .init ∧ s.phase = .finalized ∧ t = raiseFault .useAfterFinalize s) ∨
    ((∃ e, decode w = .error e) ∧ s.phase ≠ .faulted ∧ t = raiseFault .illegalCommand s) ∨
    (decode w ≠ .ok .init ∧ s.phase = .faulted ∧ t = s) := by
  cases hd : decode w with
  | error e =>
    rw [executeWord_of_error s hd] at ht
    cases ht
    by_cases hp : s.phase = .faulted
    · exact .inr (.inr (.inr (.inr (.inr ⟨by simp, hp, rejectIllegal_faulted hp⟩))))
    · exact .inr (.inr (.inr (.inr (.inl ⟨⟨e, rfl⟩, hp, rejectIllegal_of_ne_faulted hp⟩))))
  | ok i =>
    rw [executeWord_of_ok s hd] at ht
    cases i with
    | init => exact .inl ⟨rfl, (Host.Outcome.next.inj ht).symm⟩
    | addByte b =>
      have ht := (Host.Outcome.next.inj ht).symm
      cases hp : s.phase with
      | accepting => exact .inr (.inl ⟨b, rfl, rfl, by rw [ht, whenAccepting_accepting _ hp]⟩)
      | finalized =>
        exact .inr (.inr (.inr (.inl ⟨_, rfl, by simp, rfl, by rw [ht, whenAccepting_finalized _ hp]⟩)))
      | faulted => exact .inr (.inr (.inr (.inr (.inr ⟨by simp, rfl, by rw [ht, whenAccepting_faulted _ hp]⟩))))
    | digest =>
      have ht := (Host.Outcome.next.inj ht).symm
      cases hp : s.phase with
      | accepting => exact .inr (.inr (.inl ⟨rfl, rfl, by rw [ht, whenAccepting_accepting _ hp]⟩))
      | finalized =>
        exact .inr (.inr (.inr (.inl ⟨_, rfl, by simp, rfl, by rw [ht, whenAccepting_finalized _ hp]⟩)))
      | faulted => exact .inr (.inr (.inr (.inr (.inr ⟨by simp, rfl, by rw [ht, whenAccepting_faulted _ hp]⟩))))

/-! ### The step -/

theorem step_idle {s : State} (hp : s.pending = []) : step s = .next s := by simp [step, hp]

theorem step_event {s : State} {e : HostEvent} {rest : List HostEvent} (hp : s.pending = e :: rest) :
    step s = hostEvent e (takeEvent rest s) := by simp [step, hp]

/-- The state in which a command word runs: its event taken, the position advanced, the reads of its BUSY window made. -/
def atCommand (rest : List HostEvent) (vs : List Word) (s : State) : State :=
  withReads vs (acceptCommand (takeEvent rest s))

/-- Everything a step can do: nothing when idle, a command word, a hardware reset, or an event that only reads. -/
theorem step_cases {s t : State} (ht : step s = .next t) :
    (s.pending = [] ∧ t = s) ∨ ∃ e rest vs, s.pending = e :: rest ∧
      ((isReset e = false ∧ ∃ w, deliveredWord e = some w ∧ executeWord w (atCommand rest vs s) = .next t) ∨
       (isReset e = true ∧ deliveredWord e = none ∧ t = hardReset (withReads vs (takeEvent rest s))) ∨
       (isReset e = false ∧ deliveredWord e = none ∧ t = withReads vs (takeEvent rest s))) := by
  cases hp : s.pending with
  | nil => rw [step_idle hp] at ht; exact .inl ⟨rfl, (Host.Outcome.next.inj ht).symm⟩
  | cons e rest =>
    rw [step_event hp] at ht
    refine .inr ?_
    cases e with
    | write target during =>
      cases target with
      | cmd w =>
        obtain ⟨s', hr, hx⟩ := andThen_eq_next ht
        obtain ⟨-, rfl⟩ := hostReadAll_eq_next hr
        exact ⟨_, rest, _, rfl, .inl ⟨rfl, w, rfl, hx⟩⟩
      | window offset size data =>
        rw [hostEvent, hostWrite] at ht
        obtain ⟨-, -, rfl, hk⟩ := windowAccess_eq_next ht
        by_cases h0 : offset = 0
        · rw [if_pos h0] at hk
          obtain ⟨s', hr, hx⟩ := andThen_eq_next hk
          obtain ⟨-, rfl⟩ := hostReadAll_eq_next hr
          exact ⟨_, rest, _, rfl, .inl ⟨rfl, data, by simp [deliveredWord, h0], hx⟩⟩
        · rw [if_neg h0] at hk
          obtain ⟨-, rfl⟩ := hostReadAll_eq_next hk
          exact ⟨_, rest, _, rfl, .inr (.inr ⟨rfl, by simp [deliveredWord, h0], rfl⟩)⟩
    | read r =>
      obtain ⟨-, rfl⟩ := hostRead_eq_next ht
      exact ⟨_, rest, [readValue false r (takeEvent rest s)], rfl, .inr (.inr ⟨rfl, rfl, rfl⟩)⟩
    | reset => exact ⟨_, rest, [], rfl, .inr (.inl ⟨rfl, rfl, by simpa [hostEvent] using ht.symm⟩)⟩
    | resetWhileBusy w during held =>
      obtain ⟨s', hr, hx⟩ := andThen_eq_next ht
      obtain ⟨-, rfl⟩ := hostReadAll_eq_next hr
      exact ⟨_, rest, _, rfl, .inr (.inl ⟨rfl, rfl, (Host.Outcome.next.inj hx).symm⟩)⟩
    | secondHostWrite w => cases ht

end Sys2Proof.Machine
end

