-- ==== Sys2Proof/Laws/PerInstr.lean ====
section
/-! SUPPORT. Statements made for every command as syntax, one lemma per constructor. -/

namespace Sys2Proof.Laws.LegalFields

/-- The fields of a command pass the three checks of a legal word, its operand is a byte, and its OP is the top byte of its word
(30 R46-R48). -/
def Statement (i : Instr) : Prop :=
  i.wf = true ∧ i.fields.wf = true ∧ (encode i).extractLsb' 24 8 = i.fields.op

theorem init : Statement .init := ⟨rfl, rfl, rfl⟩

theorem addByte (b : Byte) : Statement (.addByte b) := by
  refine ⟨?_, rfl, ?_⟩
  · have := b.isLt
    simp only [Instr.wf, decide_eq_true_eq]
    omega
  · ext i hi
    simp only [encode, Cmd32.toWord, Instr.fields, BitVec.getElem_extractLsb', BitVec.getLsbD_append]
    simp [show ¬ 24 + i < 8 by omega, show ¬ 24 + i - 8 < 16 by omega, show 24 + i - 8 - 16 = i by omega,
      BitVec.getLsbD_eq_getElem hi]

theorem digest : Statement .digest := ⟨rfl, rfl, rfl⟩

end Sys2Proof.Laws.LegalFields
end

