-- ==== Sys2Proof/Laws/Platform.lean ====
section
/-! SUPPORT. Spec lemmas of the platform: what letting one instance act and what a bus access can do, each said once (60 R121,
20 R40). -/

namespace Sys2Proof.Machine

theorem inWindow_iff (addr k : Nat) : inWindow addr k = true ↔ Config.shaBase k ≤ addr ∧ addr < Config.shaBase k + 64 := by
  simp [inWindow]

/-- Letting instance `k` act answers exactly when it exists and its act answers, and then only that instance changes. -/
theorem onCore_eq_next {k : Nat} {act : State → Host.Outcome State Fault Refusal} {p q : Platform} :
    p.onCore k act = .next q ↔
      ∃ s t, p.cores[k]? = some s ∧ act s = .next t ∧ q = { cores := p.cores.set k t } := by
  unfold Platform.onCore
  cases hs : p.cores[k]? with
  | none => simp
  | some s => cases ha : act s <;> simp [ha, eq_comm]

/-- A bus access answers only through the one instance whose window holds the address. -/
theorem access_eq_next {addr : Nat} {event : Nat → HostEvent} {p q : Platform} (h : p.access addr event = .next q) :
    ∃ k s t, inWindow addr k = true ∧ p.cores[k]? = some s ∧
      hostEvent (event (addr - Config.shaBase k)) s = .next t ∧ q = { cores := p.cores.set k t } := by
  unfold Platform.access at h
  split at h
  · cases h
  · rename_i k hk
    have hm : k ∈ (List.range p.cores.length).filter (inWindow addr) := by rw [hk]; exact List.mem_singleton_self k
    obtain ⟨s, t, hs, ht, hq⟩ := onCore_eq_next.1 h
    exact ⟨k, s, t, (List.mem_filter.1 hm).2, hs, ht, hq⟩
  · cases h

/-- Where one window alone holds the address, a bus access is what that instance does, at the offset from its SHA_BASE. -/
theorem access_of_unique {addr k : Nat} {p : Platform} (event : Nat → HostEvent) (hk : k < p.cores.length)
    (hu : ∀ l, l < p.cores.length → (inWindow addr l = true ↔ l = k)) :
    p.access addr event = p.onCore k (hostEvent (event (addr - Config.shaBase k))) := by
  have hf : (List.range p.cores.length).filter (inWindow addr) = [k] := by
    have hc : (List.range p.cores.length).filter (inWindow addr) = (List.range p.cores.length).filter (· == k) :=
      List.filter_congr fun l hl => by
        rw [Bool.eq_iff_iff, hu l (List.mem_range.1 hl), beq_iff_eq]
    rw [hc, List.filter_beq, List.count_eq_one_of_mem List.nodup_range (List.mem_range.2 hk), List.replicate_one]
  simp [Platform.access, hf]

end Sys2Proof.Machine
end

