-- ==== Sys2Proof/Laws/Timing.lean ====
section
/-! SUPPORT. Spec lemmas of the count of compressions (70 R136): a step that delivers a command word, an event without one, and a
run of one step more. -/

namespace Sys2Proof.Machine

open Sys2Proof.Safety

/-- In ACCEPTING a command word compresses the blocks of its command. -/
theorem wordBlocks_accepting {w : Word} {i : Instr} {s : State} (hd : decode w = .ok i) (hp : s.phase = .accepting) :
    wordBlocks w s = (blocksCompressed i s).getD [] := by
  rw [wordBlocks, hd, hp]

/-- The blocks depend on the engine alone: taking the event, advancing the position and reading change none. -/
theorem wordBlocks_atCommand (w : Word) (rest : List HostEvent) (vs : List Word) (s : State) :
    wordBlocks w (atCommand rest vs s) = wordBlocks w s := rfl

theorem stepBlocks_delivered {s : State} {e : HostEvent} {rest : List HostEvent} {w : Word} (hp : s.pending = e :: rest)
    (hd : deliveredWord e = some w) : stepBlocks s = wordBlocks w s := by
  simp [stepBlocks, hp, hd]

theorem stepBlocks_not_delivered {s : State} {e : HostEvent} {rest : List HostEvent} (hp : s.pending = e :: rest)
    (hd : deliveredWord e = none) : stepBlocks s = [] := by
  simp [stepBlocks, hp, hd]

@[simp] theorem runBlocks_zero (s : State) : runBlocks 0 s = [] := rfl

theorem runBlocks_succ {s t : State} (k : Nat) (ht : step s = .next t) :
    runBlocks (k + 1) s = stepBlocks s ++ runBlocks k t := by
  simp [runBlocks, ht]

/-- A step counts the blocks it compresses. -/
theorem stepCompressions_eq (s : State) : stepCompressions s = (stepBlocks s).length := by
  unfold stepCompressions stepBlocks
  split
  · rfl
  · split <;> rfl

/-- A run counts the blocks it compresses. -/
theorem runCompressions_eq (k : Nat) (s : State) : runCompressions k s = (runBlocks k s).length := by
  induction k generalizing s with
  | zero => rfl
  | succ k ih =>
    unfold runCompressions runBlocks
    split
    · rw [ih, List.length_append, stepCompressions_eq]
    · rfl
    · rfl

end Sys2Proof.Machine
end

