-- ==== Sys2Proof/Tests/Slice0.lean ====
section
/-! SUPPORT. Tests, with expected results from the spec's own tables and examples (spec 40, 95), and one witness for each statement
with hypotheses: a concrete state that meets them. -/

set_option maxRecDepth 100000

namespace Sys2Proof.Tests

open Sys2Proof Sys2Proof.Machine Sys2Proof.Safety

/-! ### Small states -/

/-- The reset state with the host events `es` to come. -/
def withEvents (es : List HostEvent) : State := { State.reset with pending := es }

/-- The reset state with `n` bytes 'a' ingested and not compressed (n ≤ 63). -/
def holding (n : Nat) : State :=
  { State.reset with buf := List.replicate n 0x61#8, bitcount := BitVec.ofNat 64 (8 * n) }

/-- FINALIZED without a fault, with H and DOUT those of the empty message (95 section 8). -/
def finalizedState : State := { State.reset with phase := .finalized, h := Words8.zero, dout := Words8.zero }

/-- FAULTED by USE_AFTER_FINALIZE. -/
def faultedState : State := { State.reset with phase := .faulted, err := true, cause := .useAfterFinalize }

/-- ACCEPTING in a session after a fault: ERR = 1, CAUSE = 2 (95 section 8). -/
def recoveredState : State := { State.reset with err := true, cause := .useAfterFinalize }

/-- The digest of "abc" (95 S1). -/
def abcDigest : Words8 :=
  ⟨0xba7816bf#32, 0x8f01cfea#32, 0x414140de#32, 0x5dae2223#32, 0xb00361a3#32, 0x96177a9c#32, 0xb410ff61#32, 0xf20015ad#32⟩

/-- The block of "abc" (95 section 3). -/
def abcBlock : List Byte := [0x61#8, 0x62#8, 0x63#8, 0x80#8] ++ zeros 59 ++ [0x18#8]

/-- Host events that write command words. -/
def cmds (ws : List Word) : List HostEvent := commandEvents ws

/-! ### Well-formedness: an ill-formed term for each check (30 R46, R47, R54) -/

theorem test_wf_refuses_unassigned_op : Cmd32.wf { op := 0x04#8, rsv := 0#16, data := 0#8 } = false := by decide
theorem test_wf_refuses_reserved_bits : Cmd32.wf { op := 0x02#8, rsv := 1#16, data := 0x61#8 } = false := by decide
theorem test_wf_refuses_data_of_digest : Cmd32.wf { op := 0x03#8, rsv := 0#16, data := 0x80#8 } = false := by decide
theorem test_wf_accepts_add_byte : Cmd32.wf { op := 0x02#8, rsv := 0#16, data := 0xFF#8 } = true := by decide
theorem test_wf_accepts_every_operand : Instr.wf (.addByte 0xFF#8) = true := by decide
theorem test_asm_refuses_operand_256 : assembleLine (.addByte 256) = none := by decide
theorem test_asm_refuses_element_256 : assembleLine (.addBytes [1, 256]) = none := by decide

/-! ### Decoding: words written out from the encoding (30 R46, R47; 95 section 7) -/

theorem test_decode_init : decode 0b00000001000000000000000000000000#32 = .ok .init := by decide
theorem test_decode_add_byte : decode 0b00000010000000000000000010000001#32 = .ok (.addByte 0x81#8) := by decide
theorem test_decode_digest : decode 0b00000011000000000000000000000000#32 = .ok .digest := by decide
theorem test_decode_rejects_zero : decode 0x00000000#32 = .error (.unassignedOp 0x00#8) := by decide
theorem test_decode_rejects_init_data : decode 0x01000001#32 = .error .initFieldsNotZero := by decide
theorem test_decode_rejects_add_byte_bit8 : decode 0x02000161#32 = .error .addByteReservedNotZero := by decide
theorem test_decode_rejects_digest_rsv : decode 0x03010000#32 = .error .digestFieldsNotZero := by decide
theorem test_table_word_add_byte : decodeTableWord 32 0x02000061 = some (.addByte 0x61#8) := by decide

/-! ### Primitives and constants (40 R61-R72; 95 section 2) -/

theorem test_rotr : rotr 8 0x12345678#32 = 0x78123456#32 := by decide
theorem test_shr : shr 10 0xFFFFFFFF#32 = 0x003FFFFF#32 := by decide
theorem test_ch : ch 0x510e527f#32 0x9b05688c#32 0x1f83d9ab#32 = 0x1f85c98c#32 := by decide
theorem test_maj : maj 0x6a09e667#32 0xbb67ae85#32 0x3c6ef372#32 = 0x3a6fe667#32 := by decide
theorem test_big_sigma0 : bigSigma0 0x6a09e667#32 = 0xce20b47e#32 := by decide
theorem test_big_sigma1 : bigSigma1 0x510e527f#32 = 0x3587272b#32 := by decide
theorem test_small_sigma0 : smallSigma0 0xffffffff#32 = 0x1fffffff#32 := by decide
theorem test_small_sigma1 : smallSigma1 0x12345678#32 = 0xa1f78649#32 := by decide

/-! ### Compression (95 sections 3 to 5) -/

theorem test_schedule_abc_words : ((schedule (blockWords abcBlock)).drop 16).take 3
    = [0x61626380#32, 0x000f0000#32, 0x7da86405#32] := by decide
theorem test_schedule_abc_last : (schedule (blockWords abcBlock)).getD 63 0#32 = 0x12b1edeb#32 := by decide
theorem test_round0_abc : (roundsUpTo (schedule (blockWords abcBlock)) (Vars.ofWords8 iv) 1).a = 0x5d6aebcd#32
    ∧ (roundsUpTo (schedule (blockWords abcBlock)) (Vars.ofWords8 iv) 1).e = 0xfa2a4622#32 := by decide
theorem test_compress_abc : compress iv abcBlock = some abcDigest := by decide
theorem test_compress_all_ones :
    compress ⟨0xffffffff#32, 0xffffffff#32, 0xffffffff#32, 0xffffffff#32, 0xffffffff#32, 0xffffffff#32, 0xffffffff#32, 0xffffffff#32⟩
      (List.replicate 64 0xff#8)
    = some ⟨0x0598127a#32, 0xaf11706e#32, 0x77401fff#32, 0xd730c549#32, 0x0b84c867#32, 0xa98c6ca3#32, 0xd7f3c0f9#32, 0x06a78b79#32⟩ := by
  decide

/-! ### One step of each command (42 R86, R87, R90; 95 sections 6, 8) -/

/-- INIT in FAULTED: ACCEPTING again, ERR and CAUSE kept, STATUS 0x14. -/
theorem test_step_init : (next? (step { faultedState with pending := cmds [0x01000000#32] })).map
    (fun t => (t.phase, t.h, statusWord false t)) = some (.accepting, iv, 0x00000014#32) := by decide

/-- BITCOUNT wraps: the byte at 2^64 − 8 gives 0 (92 D11). -/
theorem test_step_add_byte_wraps : (next? (step { withEvents (cmds [0x02000080#32]) with bitcount := 0xFFFFFFFFFFFFFFF8#64 })).map
    (fun t => (t.buf, t.bitcount, t.pc)) = some ([0x80#8], 0#64, 1) := by decide

/-- The 64th byte 'a' compresses and empties the buffer (95 section 6.2). -/
theorem test_step_add_byte_compresses : (next? (step { holding 63 with pending := cmds [0x02000061#32] })).map
    (fun t => (t.h, t.buf, t.bitcount))
    = some (⟨0xdf5bb81c#32, 0xe81e0626#32, 0xfb45a894#32, 0x4fd40f31#32, 0xb25e6816#32, 0xd6d499c1#32, 0xab904929#32, 0x00635e66#32⟩,
        [], 0x200#64) := by decide

/-- 'a' × 55 takes one compression (95 section 6.1, section 9). -/
theorem test_step_digest_55 : (next? (step { holding 55 with pending := cmds [0x03000000#32] })).map (fun t => t.dout)
    = some ⟨0x9f4390f8#32, 0xd30c2dd9#32, 0x2ec9f095#32, 0xb65e2b9a#32, 0xe9b0a925#32, 0xa5258e24#32, 0x1c9f1e91#32, 0x0f734318#32⟩ := by
  decide

/-- 'a' × 56 takes two compressions (95 section 6.1). -/
theorem test_step_digest_56 : (next? (step { holding 56 with pending := cmds [0x03000000#32] })).map (fun t => (t.dout, t.phase))
    = some (⟨0xb35439a4#32, 0xac6f0948#32, 0xb6d6f9e3#32, 0xc6af0f5f#32, 0x590ce20f#32, 0x1bde7090#32, 0xef797068#32, 0x6ec6738a#32⟩,
        .finalized) := by decide

/-- An illegal word in FINALIZED reports ILLEGAL_COMMAND (95 section 8). -/
theorem test_step_illegal_in_finalized : (next? (step { finalizedState with pending := cmds [0x00000000#32] })).map
    (fun t => statusWord false t) = some 0x0000000E#32 := by decide

/-- A later fault keeps the first cause (95 section 8). -/
theorem test_step_first_cause_kept : (next? (step { recoveredState with pending := cmds [0xFFFFFFFF#32] })).map
    (fun t => (t.phase, statusWord false t)) = some (.faulted, 0x00000016#32) := by decide

/-- STATUS and DOUT read inside DIGEST's BUSY window are the values before it (20 R43, 70 R133). -/
theorem test_step_busy_reads : (next? (step (withEvents [.write (.cmd 0x03000000#32) [.status, .window 0x08 .word]]))).map
    (fun t => (t.hostReads, statusWord false t)) = some ([0x00000040#32, 0x00000000#32], 0x00000001#32) := by decide

/-- A program placed by the host's hook runs as the very next step. -/
theorem test_fetch_word_runs_digest : (next? (step (State.reset.withFetchWord 32 0x03000000))).map (fun t => (t.phase, t.pc))
    = some (.finalized, 1) := by decide

/-! ### The assembler (30 R54, R55; 95 section 10) -/

theorem test_asm_text : assembleText "init\nADD_BYTES \"ab\" ; two\nADD_BYTE 0x80\nDIGEST\n".toList
    = some [0x01000000#32, 0x02000061#32, 0x02000062#32, 0x02000080#32, 0x03000000#32] := by decide
/-- No blank is needed before a quoted or bracketed operand: the model's choice (log entry 9). -/
theorem test_asm_text_needs_no_blank : assembleText "ADD_BYTE'a'\nADD_BYTES[1,2]".toList
    = some [0x02000061#32, 0x02000001#32, 0x02000002#32] := by decide
/-- Leading zeros of a decimal operand: the model's choice (log entry 9). -/
theorem test_asm_text_leading_zeros : assembleText "ADD_BYTE 0007".toList = some [0x02000007#32] := by decide
theorem test_asm_text_refuses_label : assembleText "loop: INIT".toList = none := by decide

/-! ### Witnesses: for each statement with hypotheses, states that meet them -/

theorem witness_DecodeIsInverseOfEncode : decode 0x020000FF#32 = .ok (.addByte 0xFF#8) := by decide

theorem witness_StepRunsDecodedCommand : decode 0x03000000#32 = .ok .digest ∧
    (withEvents (cmds [0x03000000#32])).pending = [.write (.cmd 0x03000000#32) []] ∧
    (withEvents [.write (.window 0x00 .word 0x03000000#32) []]).pending = [.write (.window 0x00 .word 0x03000000#32) []] := by
  decide

theorem witness_StepAnswersIllegalWord : legal 0x02000100#32 = false ∧ ([] : List HostRead).all readAllowed = true ∧
    (withEvents (cmds [0x02000100#32])).phase ≠ .faulted ∧
    { faultedState with pending := cmds [0x02000100#32] }.phase = .faulted ∧
    { faultedState with pending := cmds [0x02000100#32] }.pending = .write (.cmd 0x02000100#32) [] :: [] ∧
    (withEvents [.write (.window 0x00 .word 0x02000100#32) []]).pending = [.write (.window 0x00 .word 0x02000100#32) []] := by
  decide

theorem witness_IdleCoreHoldsItsState : State.reset.pending = [] := by decide

theorem witness_SecondHostIsRefused : (withEvents [.secondHostWrite 0#32]).pending = [.secondHostWrite 0#32] := by decide

theorem witness_CommandsRunInIssueOrder :
    (withEvents (cmds [0x02000061#32, 0x03000000#32])).pending = commandEvents [0x02000061#32, 0x03000000#32] ++ [] := by decide

theorem witness_PositionAdvancesByOnePerCommand :
    (isReset (.resetWhileBusy 0x03000000#32 [] none) = true ∧
      ∃ t, step (withEvents [.resetWhileBusy 0x03000000#32 [] none]) = .next t) ∧
    (isReset (.write (.cmd 0#32) []) = false ∧ deliveredWord (.write (.cmd 0#32) []) = some 0#32 ∧
      ∃ t, step (withEvents (cmds [0#32])) = .next t) ∧
    (isReset (.write (.window 0x3C .word 1#32) []) = false ∧ deliveredWord (.write (.window 0x3C .word 1#32) []) = none ∧
      ∃ t, step (withEvents [.write (.window 0x3C .word 1#32) []]) = .next t) :=
  ⟨⟨rfl, _, rfl⟩, ⟨rfl, rfl, _, rfl⟩, ⟨rfl, rfl, _, rfl⟩⟩

theorem witness_InitConstructsFreshEngine : (∃ t, exec .init faultedState = .next t) ∧
    (∃ t, exec .init finalizedState = .next t) ∧ finalizedState.err = false ∧ finalizedState.cause = .none :=
  ⟨⟨_, rfl⟩, ⟨_, rfl⟩, rfl, rfl⟩

theorem witness_InitDiffersFromResetInErrAndCause : ∃ t, exec .init finalizedState = .next t := ⟨_, rfl⟩

theorem witness_AddByteIngestsOneByte :
    ((holding 62).phase = .accepting ∧ (holding 62).buf.length ≠ 63) ∧
    ((holding 63).phase = .accepting ∧ (holding 63).buf.length = 63) ∧
    finalizedState.phase = .finalized ∧ faultedState.phase = .faulted := by decide

theorem witness_DigestPadsAndPublishes :
    ((holding 0).phase = .accepting ∧ (holding 0).buf.length ≤ 55) ∧
    ((holding 55).phase = .accepting ∧ (holding 55).buf.length ≤ 55) ∧
    ((holding 56).phase = .accepting ∧ 56 ≤ (holding 56).buf.length ∧ (holding 56).buf.length ≤ 63) ∧
    ((holding 63).phase = .accepting ∧ 56 ≤ (holding 63).buf.length ∧ (holding 63).buf.length ≤ 63) ∧
    finalizedState.phase = .finalized ∧ faultedState.phase = .faulted := by decide

theorem witness_EmptyInputDigest : ∃ t, exec .init State.reset = .next t := ⟨_, rfl⟩

theorem witness_LegalCommandsInAcceptingNeverFault :
    (holding 63).phase = .accepting ∧ (holding 63).buf.length ≤ 63 := by decide

theorem witness_BlocksEachCommandCompresses :
    (holding 55).buf.length ≤ 63 ∧ (holding 56).buf.length ≤ 63 ∧ (holding 63).buf.length ≤ 63 ∧
    (decode 0x03000000#32 = .ok .digest ∧ (holding 56).phase = .accepting ∧ decode 0x03000000#32 ≠ .ok .init) ∧
    (legal 0x00000000#32 = false ∧ finalizedState.buf.length ≤ 63 ∧ finalizedState.phase ≠ .accepting ∧
      faultedState.buf.length ≤ 63 ∧ faultedState.phase ≠ .accepting) := by decide

theorem witness_EachCauseIsRaisedWhereTheSpecSays :
    (legal 0x01000001#32 = false ∧ finalizedState.phase ≠ .faulted) ∧
    State.reset.phase ≠ .faulted ∧
    (decode 0x02000061#32 = .ok (.addByte 0x61#8) ∧ finalizedState.phase = .finalized) ∧
    (decode 0x03000000#32 = .ok .digest ∧ decode 0x01000000#32 = .ok .init) := by decide

theorem witness_FaultsArePreciseAndKeepFirstCause :
    (State.reset.phase ≠ .faulted ∧ State.reset.err = false ∧
      (next? (executeWord 0#32 State.reset)).map (fun t => t.phase) = some .faulted) ∧
    (recoveredState.phase ≠ .faulted ∧ recoveredState.err = true ∧
      (next? (executeWord 0#32 recoveredState)).map (fun t => t.phase) = some .faulted) := by decide

theorem witness_FaultedIgnoresAllButInit : faultedState.phase = .faulted ∧
    decode 0x01000001#32 ≠ .ok .init ∧ decode 0x03000000#32 ≠ .ok .init := by decide

/-- A state that no run reaches, for BLOCK_LENGTH only. -/
theorem witness_BlockLengthFaultComputesNothing :
    (holding 64).phase = .accepting ∧ 64 ≤ (holding 64).buf.length := by decide

theorem witness_BlockLengthIsUnreachable :
    EngineInv { holding 63 with pending := cmds [0x03000000#32] } ∧ (holding 63).cause ≠ .blockLength ∧
    ∃ t, step { holding 63 with pending := cmds [0x03000000#32] } = .next t := ⟨by decide, by decide, _, rfl⟩

theorem witness_PhaseTransitionsAreExactly : (holding 63).buf.length ≤ 63 ∧
    decode 0x01000000#32 = .ok .init ∧ decode 0x02000000#32 = .ok (.addByte 0#8) ∧ decode 0x03000000#32 = .ok .digest ∧
    legal 0x04000000#32 = false ∧ (holding 63).phase = .accepting ∧ finalizedState.phase = .finalized ∧
    finalizedState.err = false ∧ faultedState.phase = .faulted := by decide

theorem witness_FaultedIsLeftOnlyByInitOrReset : faultedState.phase = .faulted ∧
    (next? (step { faultedState with pending := cmds [0x01000000#32] })).map (fun t => t.phase) = some .accepting ∧
    (next? (step { faultedState with pending := [.reset] })).map (fun t => t.phase) = some .accepting := by decide

theorem witness_ErrAndCauseAreStickyUntilReset : recoveredState.err = true ∧
    (∃ t, step { recoveredState with pending := cmds [0x01000000#32] } = .next t) ∧ isReset (.write (.cmd 0x01000000#32) []) = false :=
  ⟨rfl, ⟨_, rfl⟩, rfl⟩

theorem witness_CauseIsWrittenOnlyWithErr :
    (next? (step (withEvents (cmds [0#32])))).map (fun t => (t.cause, t.err)) = some (.illegalCommand, true) ∧
    (next? (step { faultedState with pending := [.reset] })).map (fun t => t.cause) = some .none := by decide

theorem witness_CommandFrames : (∃ t, exec .init (holding 1) = .next t) ∧ (∃ t, exec (.addByte 0#8) (holding 1) = .next t) ∧
    (∃ t, exec .digest (holding 1) = .next t) ∧ (∃ t, exec .digest finalizedState = .next t) ∧ finalizedState.phase ≠ .accepting :=
  ⟨⟨_, rfl⟩, ⟨_, rfl⟩, ⟨_, rfl⟩, ⟨_, rfl⟩, by decide⟩

theorem witness_HashStateHasNoOtherWriter :
    (next? (step { finalizedState with pending := cmds [0x01000000#32] })).map (fun t => decide (t.h ≠ finalizedState.h))
      = some true := by decide

theorem witness_DoutHasNoOtherWriter :
    (next? (step (withEvents (cmds [0x03000000#32])))).map (fun t => decide (t.dout ≠ Words8.zero)) = some true := by decide

theorem witness_BitcountHasNoOtherWriter :
    (next? (step (withEvents (cmds [0x02000000#32])))).map (fun t => t.bitcount) = some 8#64 ∧
    (next? (step { holding 1 with pending := cmds [0x01000000#32] })).map (fun t => t.bitcount) = some 0#64 ∧
    (next? (step { holding 1 with pending := [.reset] })).map (fun t => t.bitcount) = some 0#64 := by decide

theorem witness_EveryStepKeepsInvariant : EngineInv { holding 63 with pending := cmds [0x02000061#32] } ∧
    EngineInv finalizedState ∧ EngineInv faultedState ∧
    ∃ t, step { holding 63 with pending := cmds [0x02000061#32] } = .next t := ⟨by decide, by decide, by decide, _, rfl⟩

theorem witness_EveryStepKeepsBufferShort : (holding 63).buf.length ≤ 63 ∧
    ∃ t, step { holding 63 with pending := cmds [0x02000061#32] } = .next t := ⟨by decide, _, rfl⟩

theorem witness_SuccessIsVisibleInStatus : EngineInv finalizedState ∧ Successful finalizedState ∧
    EngineInv faultedState ∧ ¬ Successful faultedState := by decide

theorem witness_RegisterWindowMap :
    (withEvents [.read (.window (4 * 0) .word)]).pending = [.read (.window (4 * 0) .word)] ∧
    (withEvents [.read (.window (4 * 15) .word)]).pending = [.read (.window (4 * 15) .word)] ∧
    (withEvents [.write (.window (4 * 1) .word 7#32) []]).pending = [.write (.window (4 * 1) .word 7#32) []] ∧
    [HostRead.status, .window (4 * 15) .word].all readAllowed = true ∧
    (withEvents [.write (.window (4 * 15) .word 7#32) [.status, .window (4 * 15) .word]]).pending
      = [.write (.window (4 * 15) .word 7#32) [.status, .window (4 * 15) .word]] := by decide

theorem witness_NarrowOrMisalignedAccessIsRefused :
    ((0 < 64) ∧ AccessSize.byte ≠ .word ∧ (withEvents [.read (.window 0 .byte)]).pending = [.read (.window 0 .byte)]) ∧
    ((63 < 64) ∧ 63 % 4 ≠ 0 ∧
      (withEvents [.write (.window 63 .word 0#32) []]).pending = [.write (.window 63 .word 0#32) []]) := by decide

theorem witness_AccessOutsideWindowFaults :
    64 ≤ 64 ∧ (withEvents [.read (.window 64 .word)]).pending = [.read (.window 64 .word)] ∧
    (withEvents [.write (.window 64 .half 0#32) []]).pending = [.write (.window 64 .half 0#32) []] := by decide

theorem witness_ReadsHaveNoSideEffects : (withEvents [.read .status]).pending = [.read .status] ∧
    (withEvents [.read (.dout 7)]).pending = [.read (.dout 7)] ∧
    ∃ t, step (withEvents [.read (.dout 7)]) = .next t := ⟨rfl, rfl, _, rfl⟩

theorem witness_BusyWindowReadsPreCommandValues : decode 0x03000000#32 = .ok .digest ∧
    [HostRead.status, .dout 0, .window 0x3C .word].all readAllowed = true ∧
    (withEvents [.write (.cmd 0x03000000#32) [.status, .dout 0, .window 0x3C .word]]).pending
      = [.write (.cmd 0x03000000#32) [.status, .dout 0, .window 0x3C .word]] ∧
    (withEvents [.write (.window 0x00 .word 0x03000000#32) [.status]]).pending
      = [.write (.window 0x00 .word 0x03000000#32) [.status]] := by decide

theorem witness_HiddenStateIsInvisibleToReads :
    (State.reset.phase = (holding 9).phase ∧ State.reset.err = (holding 9).err ∧ State.reset.cause = (holding 9).cause ∧
      State.reset.dout = (holding 9).dout ∧ State.reset.hostReads = (holding 9).hostReads) ∧
    (∃ t, hostReadAll true [.status] State.reset = .next t) ∧
    hostReadAll false [.status, .window 64 .word] State.reset = .fault .outsideWindow ∧
    hostReadAll false [.window 1 .word] State.reset = .refused (.badBusAccess Config.busBadAccess) := ⟨by decide, ⟨_, rfl⟩, rfl, rfl⟩

theorem witness_HardwareResetAbandonsEverything : (withEvents [.reset]).pending = [.reset] ∧
    [HostRead.status].all readAllowed = true ∧
    (withEvents [.resetWhileBusy 0x03000000#32 [.status] (some 0x01000000#32)]).pending
      = [.resetWhileBusy 0x03000000#32 [.status] (some 0x01000000#32)] := by decide

theorem witness_LengthFieldIsBigEndian : (7 : Nat) < 8 ∧ be64Bytes 0x200#64 = [0#8, 0#8, 0#8, 0#8, 0#8, 0#8, 2#8, 0#8] := by decide

theorem witness_RotatesShiftsAndSigmasByBit : (31 : Nat) < 32 ∧ 0 < 1 ∧ (0 < 31 ∧ 31 < 32) := by decide

theorem witness_ChooseAndMajorityByBit : (31 : Nat) < 32 := by decide

theorem witness_BlockWordsAreBigEndian : abcBlock.length = 64 ∧ 15 < 16 := by decide

theorem witness_ScheduleFollowsRecurrence : (blockWords abcBlock).length = 16 ∧ 15 < 16 ∧ (16 ≤ 16 ∧ 63 < 64) := by decide

theorem witness_CompressRunsSixtyFourRounds : abcBlock.length = 64 := by decide

theorem witness_IngestionClosedForm :
    ([0x61#8] : List Byte).length < 2 ^ 61 ∧ State.reset.h = iv ∧ State.reset.buf = [] ∧ State.reset.bitcount = 0#64 ∧
    State.reset.phase = .accepting ∧ (withEvents (cmds [0x02000061#32])).pending = commandEvents (addBytesWords [0x61#8]) ++ [] := by
  decide

theorem witness_SessionHashesThePaddedMessage :
    ([0x61#8] : List Byte).length < 2 ^ 61 ∧ (withEvents (cmds [0x01000000#32, 0x02000061#32, 0x03000000#32])).pending
      = commandEvents (encode .init :: addBytesWords [0x61#8] ++ [encode .digest]) ++ [] := by decide

theorem witness_SessionBlockCount : (withEvents (cmds [0x01000000#32, 0x02000061#32, 0x03000000#32])).pending
    = commandEvents (encode .init :: addBytesWords [0x61#8] ++ [encode .digest]) ++ [] := by decide

/-- One session through the port, one from FAULTED through the register window with reads in its BUSY windows. -/
theorem witness_DigestDependsOnlyOnMessage :
    (cmds [0x01000000#32, 0x03000000#32]).map deliveredWord
      = (encode .init :: addBytesWords [] ++ [encode .digest]).map some ∧
    [HostEvent.write (.window 0x00 .word 0x01000000#32) [.status], .write (.cmd 0x03000000#32) [.dout 0]].map deliveredWord
      = (encode .init :: addBytesWords [] ++ [encode .digest]).map some ∧
    (∃ t, Host.Core.run Sys2Proof.core 2 (withEvents (cmds [0x01000000#32, 0x03000000#32])) = .next t) ∧
    ∃ t, Host.Core.run Sys2Proof.core 2 { faultedState with
      pending := [.write (.window 0x00 .word 0x01000000#32) [.status], .write (.cmd 0x03000000#32) [.dout 0]] } = .next t :=
  ⟨by decide, by decide, ⟨_, rfl⟩, ⟨_, rfl⟩⟩

theorem witness_AssemblerNeverEmitsIllegalWord :
    assembleText "ADD_BYTE 'c'".toList = some [0x02000063#32] ∧ 255 < 256 ∧ (256 ∈ [1, 256] ∧ 255 < 256) ∧
    (splitLines [] "INIT\nADD_BYTES [1,256]".toList).mapM parseLine = some [[.init], [.addBytes [1, 256]]] ∧
    AsmLine.addBytes [1, 256] ∈ [[AsmLine.init], [.addBytes [1, 256]]].flatten ∧
    AsmLine.wf (.addBytes [1, 256]) = false := by decide

theorem witness_InstancesAreIndependent :
    (∃ q, Platform.stepCore 1 ⟨[State.reset, State.reset]⟩ = .next q) ∧
    (∀ l, l < [State.reset].length →
      ((Config.shaBase l ≤ Config.shaBase 0 + 4 ∧ Config.shaBase 0 + 4 < Config.shaBase l + 64) ↔ l = 0)) ∧
    [State.reset][0]? = some State.reset ∧
    (∃ t, hostEvent (.read (.window (Config.shaBase 0 + 4 - Config.shaBase 0) .word)) State.reset = .next t) ∧
    ∃ q, Platform.access (Config.shaBase 0 + 4) (fun o => .read (.window o .word)) ⟨[State.reset]⟩ = .next q := by
  have ho : Config.shaBase 0 + 4 - Config.shaBase 0 = 4 := by omega
  refine ⟨⟨_, rfl⟩, fun l hl => ?_, rfl, ?_, ?_⟩
  · obtain rfl : l = 0 := Nat.lt_one_iff.1 hl
    simp
  · rw [ho]
    exact ⟨_, rfl⟩
  have hf : (List.range 1).filter (inWindow (Config.shaBase 0 + 4)) = [0] := by
    simp [List.range_succ, inWindow]
  refine ⟨⟨[{ State.reset with hostReads := [0#32] }]⟩, ?_⟩
  simp only [Platform.access, List.length_singleton, hf]
  rw [ho]
  rfl

end Sys2Proof.Tests
end

section
/-! The length field, byte by byte (00 R8, 20 R38). -/

namespace Sys2Proof.Machine

/-- Byte n of a bit vector, counted from the least significant, is its digit n in base 256. -/
theorem toNat_extractLsb'_byte {w : Nat} (v : BitVec w) (n : Nat) :
    (v.extractLsb' (8 * n) 8).toNat = v.toNat / 256 ^ n % 256 := by
  have h256 : 2 ^ (8 * n) = 256 ^ n := pow_mul 2 8 n
  rw [BitVec.extractLsb'_toNat, Nat.shiftRight_eq_div_pow, h256]

theorem be64Bytes_eq_map (v : BitVec 64) :
    be64Bytes v = (List.range 8).map fun k => v.extractLsb' (8 * (7 - k)) 8 := rfl

/-- Position k of the length field holds byte 7 - k of the value: the most significant byte comes first. -/
theorem be64Bytes_getD (v : BitVec 64) {k : Nat} (hk : k < 8) :
    (be64Bytes v).getD k 0#8 = v.extractLsb' (8 * (7 - k)) 8 := by
  simp [be64Bytes_eq_map, hk]

/-- Settles O46: each position of the length field is one base-256 digit of the count, the highest digit first. -/
theorem lengthFieldIsBigEndian : Obligations.LengthFieldIsBigEndian := by
  intro v
  refine ⟨be64Bytes_length v, fun k hk => ?_⟩
  rw [be64Bytes_getD v hk, toNat_extractLsb'_byte]

end Sys2Proof.Machine
end

section
/-! Narrow and misaligned accesses to the register window (00 R5, 20 R41). -/

namespace Sys2Proof.Machine

theorem hostRead_window_bad {offset : Nat} {size : AccessSize} (busy : Bool) (s : State)
    (h64 : offset < 64) (hb : size ≠ .word ∨ offset % 4 ≠ 0) :
    hostRead busy (.window offset size) s = .refused (.badBusAccess Config.busBadAccess) := by
  rw [hostRead, windowAccess_bad _ s h64 hb]

theorem hostWrite_window_bad {offset : Nat} {size : AccessSize} (d : Word) (during : List HostRead) (s : State)
    (h64 : offset < 64) (hb : size ≠ .word ∨ offset % 4 ≠ 0) :
    hostWrite (.window offset size d) during s = .refused (.badBusAccess Config.busBadAccess) := by
  rw [hostWrite, windowAccess_bad _ s h64 hb]

/-- Settles O39: reads and writes of the window go through one access check, which refuses before anything else happens. -/
theorem narrowOrMisalignedAccessIsRefused : Obligations.NarrowOrMisalignedAccessIsRefused := by
  intro s rest offset size d during h64 hb hpending
  obtain hread | hwrite := hpending
  · rw [step_event hread]
    exact hostRead_window_bad false _ h64 hb
  · rw [step_event hwrite]
    exact hostWrite_window_bad d during _ h64 hb

end Sys2Proof.Machine
end

section
/-! What a command word and a step can do, with every outcome written out (10 R20-R25; 42 R86, R87, R90; 60 R109-R114). -/

namespace Sys2Proof.Machine

open Sys2Proof.Safety

/-- Everything a command word with decoding `d` can leave from the state `s`, one constructor per outcome. -/
inductive CommandEffect (d : Except IllegalWord Instr) (s : State) : State → Prop
  /-- INIT, in every phase (42 R86). -/
  | constructed (hd : d = .ok .init) : CommandEffect d s (constructEngine s)
  /-- ADD_BYTE that does not fill the buffer (42 R87). -/
  | buffered (b : Byte) (hd : d = .ok (.addByte b)) (hp : s.phase = .accepting) (hl : s.buf.length ≠ 63) :
    CommandEffect d s { s with buf := s.buf ++ [b], bitcount := s.bitcount + 8#64 }
  /-- ADD_BYTE that fills the buffer (42 R87). -/
  | compressed (b : Byte) (x : Words8) (hd : d = .ok (.addByte b)) (hp : s.phase = .accepting) (hl : s.buf.length = 63) :
    CommandEffect d s { s with h := x, buf := [], bitcount := s.bitcount + 8#64 }
  /-- DIGEST of a buffer of at most 63 bytes (42 R90). -/
  | published (x : Words8) (hd : d = .ok .digest) (hp : s.phase = .accepting) (hl : s.buf.length ≤ 63) :
    CommandEffect d s { s with h := x, buf := [], dout := x, phase := .finalized }
  /-- DIGEST of a longer buffer (60 R112). -/
  | overlong (hd : d = .ok .digest) (hp : s.phase = .accepting) (hl : 64 ≤ s.buf.length) :
    CommandEffect d s (raiseFault .blockLength s)
  /-- ADD_BYTE or DIGEST in FINALIZED (60 R111). -/
  | misused (i : Instr) (hd : d = .ok i) (hi : i ≠ .init) (hp : s.phase = .finalized) :
    CommandEffect d s (raiseFault .useAfterFinalize s)
  /-- An illegal word outside FAULTED (60 R111, R115). -/
  | illegal (e : IllegalWord) (hd : d = .error e) (hp : s.phase ≠ .faulted) :
    CommandEffect d s (raiseFault .illegalCommand s)
  /-- Any word but INIT in FAULTED (60 R114). -/
  | ignored (hd : d ≠ .ok .init) (hp : s.phase = .faulted) : CommandEffect d s s

theorem addByte_effect (b : Byte) {s : State} (hp : s.phase = .accepting) :
    CommandEffect (.ok (.addByte b)) s (commit id (addByteWork b s) s) := by
  obtain ⟨hl, hc⟩ | ⟨hl, x, -, hc⟩ := commit_addByteWork_cases b s
  · rw [hc]; exact .buffered b rfl hp hl
  · rw [hc]; exact .compressed b x rfl hp hl

theorem digest_effect {s : State} (hp : s.phase = .accepting) :
    CommandEffect (.ok .digest) s (commit publishDigest (digestWork s) s) := by
  obtain ⟨hl, x, hc⟩ | ⟨hl, hc⟩ := commit_digestWork_cases s
  · rw [hc]; exact .published x rfl hp hl
  · rw [hc]; exact .overlong rfl hp hl

/-- A command outside ACCEPTING is the prologue's answer (60 R113). -/
theorem exec_effect_of_ne_accepting {i : Instr} {s : State} (hi : i ≠ .init) (hp : s.phase ≠ .accepting) :
    ∃ t, exec i s = .next t ∧ CommandEffect (.ok i) s t := by
  cases hph : s.phase with
  | accepting => exact absurd hph hp
  | finalized => exact ⟨_, exec_finalized hi hph, .misused i rfl hi hph⟩
  | faulted => exact ⟨_, exec_faulted hi hph, .ignored (by simpa using hi) hph⟩

/-- Every command completes, with one of the effects listed. -/
theorem exec_effect (i : Instr) (s : State) : ∃ t, exec i s = .next t ∧ CommandEffect (.ok i) s t := by
  by_cases hp : s.phase = .accepting
  · cases i with
    | init => exact ⟨_, exec_init s, .constructed rfl⟩
    | addByte b => exact ⟨_, exec_addByte_accepting b hp, addByte_effect b hp⟩
    | digest => exact ⟨_, exec_digest_accepting hp, digest_effect hp⟩
  · by_cases hi : i = .init
    · subst hi
      exact ⟨_, exec_init s, .constructed rfl⟩
    · exact exec_effect_of_ne_accepting hi hp

/-- Every command word completes, with one of the effects listed. -/
theorem executeWord_effect (w : Word) (s : State) : ∃ t, executeWord w s = .next t ∧ CommandEffect (decode w) s t := by
  cases hd : decode w with
  | ok i =>
    rw [executeWord_of_ok s hd]
    exact exec_effect i s
  | error e =>
    refine ⟨_, executeWord_of_error s hd, ?_⟩
    by_cases hp : s.phase = .faulted
    · rw [rejectIllegal_faulted hp]; exact .ignored (by simp) hp
    · rw [rejectIllegal_of_ne_faulted hp]; exact .illegal e rfl hp

theorem CommandEffect.of_exec {i : Instr} {s t : State} (ht : exec i s = .next t) : CommandEffect (.ok i) s t := by
  obtain ⟨t', ht', he⟩ := exec_effect i s
  cases ht.symm.trans ht'
  exact he

theorem CommandEffect.of_executeWord {w : Word} {s t : State} (ht : executeWord w s = .next t) :
    CommandEffect (decode w) s t := by
  obtain ⟨t', ht', he⟩ := executeWord_effect w s
  cases ht.symm.trans ht'
  exact he

/-- No command touches the position or the host's own data. -/
theorem CommandEffect.outside {d : Except IllegalWord Instr} {s t : State} (he : CommandEffect d s t) :
    t.pc = s.pc ∧ t.pending = s.pending ∧ t.hostReads = s.hostReads := by
  cases he <;> exact ⟨rfl, rfl, rfl⟩

/-- A command raises a fault, or leaves ERR and CAUSE as they are and does not enter FAULTED (60 R109). -/
theorem CommandEffect.fault_or_keeps {d : Except IllegalWord Instr} {s t : State} (he : CommandEffect d s t) :
    (∃ c, c ≠ .none ∧ t = raiseFault c s) ∨
    (t.err = s.err ∧ t.cause = s.cause ∧ (t.phase = .faulted → s.phase = .faulted)) := by
  cases he with
  | constructed => exact .inr ⟨rfl, rfl, nofun⟩
  | buffered | compressed | ignored => exact .inr ⟨rfl, rfl, id⟩
  | published => exact .inr ⟨rfl, rfl, nofun⟩
  | overlong => exact .inl ⟨.blockLength, nofun, rfl⟩
  | misused => exact .inl ⟨.useAfterFinalize, nofun, rfl⟩
  | illegal => exact .inl ⟨.illegalCommand, nofun, rfl⟩

/-! ### The step -/

@[simp] theorem atCommand_pc (rest : List HostEvent) (vs : List Word) (s : State) :
    (atCommand rest vs s).pc = s.pc + 1 := rfl

/-- A property of the engine that hardware reset establishes and every command keeps is kept by every step. The first two
premises say that the property does not speak of the position or the outside world. -/
theorem step_keeps {P : State → Prop} (hreads : ∀ rest vs u, P u → P (withReads vs (takeEvent rest u)))
    (hat : ∀ rest vs u, P u → P (atCommand rest vs u)) (hreset : ∀ u, P (hardReset u))
    (hcommand : ∀ d u v, CommandEffect d u v → P u → P v) {s t : State} (hs : P s) (ht : step s = .next t) : P t := by
  obtain ⟨-, rfl⟩ | ⟨e, rest, vs, -, ⟨-, w, -, hx⟩ | ⟨-, -, rfl⟩ | ⟨-, -, rfl⟩⟩ := step_cases ht
  · exact hs
  · exact hcommand _ _ _ (.of_executeWord hx) (hat rest vs s hs)
  · exact hreset _
  · exact hreads rest vs s hs

/-- A part of the engine that a step changes was written by a hardware reset or by a command word. -/
theorem step_writer {α : Type} {f : State → α} {s t : State} (hf : ∀ rest vs, f (withReads vs (takeEvent rest s)) = f s)
    (ht : step s = .next t) (hne : f t ≠ f s) :
    ∃ e rest, s.pending = e :: rest ∧ ((isReset e = true ∧ ∃ u, t = hardReset u) ∨
      ∃ w vs, deliveredWord e = some w ∧ CommandEffect (decode w) (atCommand rest vs s) t) := by
  obtain ⟨-, rfl⟩ | ⟨e, rest, vs, hp, ⟨-, w, hw, hx⟩ | ⟨hr, -, rfl⟩ | ⟨-, -, rfl⟩⟩ := step_cases ht
  · exact absurd rfl hne
  · exact ⟨e, rest, hp, .inr ⟨w, vs, hw, .of_executeWord hx⟩⟩
  · exact ⟨e, rest, hp, .inl ⟨hr, _, rfl⟩⟩
  · exact absurd (hf rest vs) hne

end Sys2Proof.Machine
end

section
/-! The invariant of the engine (10 R29, R30; 60 R109): it holds at reset, and each part of it is kept by every command. -/

namespace Sys2Proof.Machine

open Sys2Proof.Safety

/-- Settles O33: at reset the buffer and the count are empty, DOUT is zero and no fault is recorded. -/
theorem invariantHoldsAtReset : Obligations.InvariantHoldsAtReset := by
  intro events reads
  have hbuffer : State.reset.buf.length ≤ 63 := Nat.zero_le 63
  have hcount : State.reset.bitcount.toNat % 8 = 0 ∧ State.reset.buf.length = State.reset.bitcount.toNat / 8 % 64 :=
    ⟨rfl, rfl⟩
  exact ⟨hbuffer, ⟨hcount.1, fun _ => hcount.2⟩, ⟨fun _ => rfl, nofun⟩, ⟨fun _ => rfl, fun _ => rfl⟩, nofun⟩

theorem engineInv_hardReset (s : State) : EngineInv (hardReset s) := invariantHoldsAtReset s.pending s.hostReads

theorem CommandEffect.keeps_bufferShort {d : Except IllegalWord Instr} {s t : State} (he : CommandEffect d s t)
    (hs : BufferShort s) : BufferShort t := by
  cases he with
  | constructed | compressed | published => exact Nat.zero_le 63
  | buffered b _ _ hl => simp only [BufferShort, List.length_append, List.length_singleton] at hs ⊢; omega
  | overlong | misused | illegal | ignored => exact hs

/-- Counting one byte more keeps the count a multiple of 8 and moves its byte count on by 1 modulo 64, also where it wraps. -/
theorem bitcount_add_byte {c : BitVec 64} (h8 : c.toNat % 8 = 0) :
    (c + 8#64).toNat % 8 = 0 ∧ (c + 8#64).toNat / 8 % 64 = (c.toNat / 8 % 64 + 1) % 64 := by
  have hadd : (c + 8#64).toNat = (c.toNat + 8) % 2 ^ 64 := BitVec.toNat_add c 8#64
  rw [hadd]
  omega

theorem CommandEffect.keeps_bitcountFits {d : Except IllegalWord Instr} {s t : State} (he : CommandEffect d s t)
    (hs : BitcountFits s) : BitcountFits t := by
  obtain ⟨h8, hlen⟩ := hs
  cases he with
  | constructed => exact ⟨rfl, fun _ => by simp⟩
  | buffered b _ hp hl =>
    obtain ⟨h8', hcount⟩ := bitcount_add_byte h8
    have hlen := hlen hp
    refine ⟨h8', fun _ => ?_⟩
    rw [hcount, List.length_append, List.length_singleton]
    omega
  | compressed b x _ hp hl =>
    obtain ⟨h8', hcount⟩ := bitcount_add_byte h8
    have hlen := hlen hp
    refine ⟨h8', fun _ => ?_⟩
    rw [hcount, ← hlen, hl]
    rfl
  | published => exact ⟨h8, nofun⟩
  | overlong | misused | illegal => exact ⟨h8, nofun⟩
  | ignored => exact ⟨h8, hlen⟩

theorem CommandEffect.keeps_doutFits {d : Except IllegalWord Instr} {s t : State} (he : CommandEffect d s t)
    (hs : DoutFits s) : DoutFits t := by
  obtain ⟨hzero, hdigest⟩ := hs
  cases he with
  | constructed => exact ⟨fun _ => rfl, nofun⟩
  | buffered _ _ hp | compressed _ _ _ hp => exact ⟨hzero, fun hfin => absurd (hp.symm.trans hfin) nofun⟩
  | published => exact ⟨nofun, fun _ => ⟨rfl, rfl⟩⟩
  | overlong | misused | illegal => exact ⟨nofun, nofun⟩
  | ignored => exact ⟨hzero, hdigest⟩

theorem raiseFault_faultRecordFits {c : Cause} {s : State} (hc : c ≠ .none) (hs : FaultRecordFits s) :
    FaultRecordFits (raiseFault c s) := by
  obtain ⟨hrecord, -⟩ := hs
  have hset : (raiseFault c s).cause ≠ .none := by
    rw [raiseFault_cause]
    split
    · next herr => exact fun hn => absurd (hrecord.2 hn) (by simp [herr])
    · exact hc
  exact ⟨⟨nofun, fun hn => absurd hn hset⟩, fun _ => rfl⟩

theorem CommandEffect.keeps_faultRecordFits {d : Except IllegalWord Instr} {s t : State} (he : CommandEffect d s t)
    (hs : FaultRecordFits s) : FaultRecordFits t := by
  obtain ⟨c, hc, rfl⟩ | ⟨herr, hcause, hphase⟩ := he.fault_or_keeps
  · exact raiseFault_faultRecordFits hc hs
  · obtain ⟨hrecord, hfaulted⟩ := hs
    rw [FaultRecordFits, herr, hcause]
    exact ⟨hrecord, fun ht => hfaulted (hphase ht)⟩

theorem CommandEffect.keeps_engineInv {d : Except IllegalWord Instr} {s t : State} (he : CommandEffect d s t)
    (hs : EngineInv s) : EngineInv t := by
  obtain ⟨hbuffer, hcount, hdout, hrecord⟩ := hs
  exact ⟨he.keeps_bufferShort hbuffer, he.keeps_bitcountFits hcount, he.keeps_doutFits hdout,
    he.keeps_faultRecordFits hrecord⟩

/-- Settles O34: hardware reset establishes the invariant, every command keeps each of its parts, and it says nothing of the
position and the outside world. -/
theorem everyStepKeepsInvariant : Obligations.EveryStepKeepsInvariant := by
  intro s t hs ht
  exact step_keeps (P := EngineInv) (fun _ _ _ hu => hu) (fun _ _ _ hu => hu) engineInv_hardReset
    (fun _ _ _ he hu => he.keeps_engineInv hu) hs ht

/-- Settles O35: the buffer bound needs no other part of the invariant. -/
theorem everyStepKeepsBufferShort : Obligations.EveryStepKeepsBufferShort := by
  intro s t hs ht
  exact step_keeps (P := BufferShort) (fun _ _ _ hu => hu) (fun _ _ _ hu => hu) (fun _ => Nat.zero_le 63)
    (fun _ _ _ he hu => he.keeps_bufferShort hu) hs ht

end Sys2Proof.Machine
end

section
/-! The position and the phase (10 R20, R22), the fault record (10 R24, R25), and who writes which register (10 R13-R15, R29). -/

namespace Sys2Proof.Machine

open Sys2Proof.Safety

/-- Settles O8: no command touches the position, so it moves only where a word is accepted or the core is reset. -/
theorem positionAdvancesByOnePerCommand : Obligations.PositionAdvancesByOnePerCommand := by
  intro s t e rest hp ht
  obtain ⟨hidle, -⟩ | ⟨e', rest', vs, hp', hcases⟩ := step_cases ht
  · exact absurd (hp.symm.trans hidle) nofun
  · obtain ⟨rfl, rfl⟩ := List.cons.inj (hp.symm.trans hp')
    obtain ⟨hr, w, hw, hx⟩ | ⟨hr, hw, rfl⟩ | ⟨hr, hw, rfl⟩ := hcases
    · obtain ⟨hpc, -⟩ := (CommandEffect.of_executeWord hx).outside
      simp [hr, hw, hpc]
    · simp [hr]
    · simp [hr, hw, withReads]

theorem legal_eq_false_iff {w : Word} : legal w = false ↔ ∃ e, decode w = .error e := by
  unfold legal
  cases decode w <;> simp

/-- Settles O24: the phase each of a command word's effects leaves; the buffer bound shuts out BLOCK_LENGTH. -/
theorem phaseTransitionsAreExactly : Obligations.PhaseTransitionsAreExactly := by
  intro s w hl
  obtain ⟨t, ht, he⟩ := executeWord_effect w s
  refine ⟨t, ht, ?_⟩
  rw [legal_eq_false_iff]
  cases he with
  | constructed hd => simp [hd]
  | buffered b hd hp => simp [hd, hp]
  | compressed b x hd hp => simp [hd, hp]
  | published x hd hp => simp [hd, hp]
  | overlong _ _ h64 => omega
  | misused i hd hi hp => simp +contextual [hd, hi, hp]
  | illegal e hd hp => simp [hd, hp]
  | ignored hd hp => simp [hd, hp]

/-! ### The fault record -/

theorem CommandEffect.err_sticky {d : Except IllegalWord Instr} {s t : State} (he : CommandEffect d s t)
    (herr : s.err = true) : t.err = true ∧ t.cause = s.cause := by
  obtain ⟨c, -, rfl⟩ | ⟨herr', hcause, -⟩ := he.fault_or_keeps
  · simp [herr]
  · exact ⟨herr'.trans herr, hcause⟩

/-- Settles O26: an earlier fault is kept by every command, and no other event but a reset writes ERR or CAUSE. -/
theorem errAndCauseAreStickyUntilReset : Obligations.ErrAndCauseAreStickyUntilReset := by
  intro s t herr ht hnoReset
  obtain ⟨-, rfl⟩ | ⟨e, rest, vs, hp, ⟨-, w, -, hx⟩ | ⟨hr, -, -⟩ | ⟨-, -, rfl⟩⟩ := step_cases ht
  · exact ⟨herr, rfl⟩
  · exact (CommandEffect.of_executeWord hx).err_sticky herr
  · exact absurd (hr.symm.trans (hnoReset e rest hp)) nofun
  · exact ⟨herr, rfl⟩

theorem CommandEffect.cause_written {d : Except IllegalWord Instr} {s t : State} (he : CommandEffect d s t)
    (hne : t.cause ≠ s.cause) : s.err = false ∧ t.err = true := by
  have hclear : s.err = false := Bool.eq_false_iff.2 fun herr => hne (he.err_sticky herr).2
  obtain ⟨c, -, rfl⟩ | ⟨-, hcause, -⟩ := he.fault_or_keeps
  · exact ⟨hclear, rfl⟩
  · exact absurd hcause hne

/-- Settles O27: a command that changes CAUSE raises a fault while none is recorded. -/
theorem causeIsWrittenOnlyWithErr : Obligations.CauseIsWrittenOnlyWithErr := by
  intro s t ht hne
  obtain ⟨e, rest, hp, ⟨hr, -⟩ | ⟨w, vs, -, he⟩⟩ := step_writer (f := State.cause) (fun _ _ => rfl) ht hne
  · exact .inr ⟨e, rest, hp, hr⟩
  · exact .inl (he.cause_written hne)

/-! ### Frames and writers -/

theorem CommandEffect.addByte_keeps_dout {b : Byte} {s t : State} (he : CommandEffect (.ok (.addByte b)) s t) :
    t.dout = s.dout := by
  cases he with
  | constructed hd | published _ hd | overlong hd | illegal _ hd => cases hd
  | buffered | compressed | misused | ignored => rfl

theorem CommandEffect.digest_keeps_bitcount {s t : State} (he : CommandEffect (.ok .digest) s t) :
    t.bitcount = s.bitcount := by
  cases he with
  | constructed hd | buffered _ hd | compressed _ _ hd | illegal _ hd => cases hd
  | published | overlong | misused | ignored => rfl

/-- Outside ACCEPTING only INIT touches the engine's data. -/
theorem CommandEffect.keeps_data_of_ne_accepting {d : Except IllegalWord Instr} {s t : State} (he : CommandEffect d s t)
    (hd : d ≠ .ok .init) (hp : s.phase ≠ .accepting) :
    t.h = s.h ∧ t.buf = s.buf ∧ t.bitcount = s.bitcount ∧ t.dout = s.dout := by
  cases he with
  | constructed hinit => exact absurd hinit hd
  | buffered _ _ hacc | compressed _ _ _ hacc | published _ _ hacc | overlong _ hacc => exact absurd hacc hp
  | misused | illegal | ignored => exact ⟨rfl, rfl, rfl, rfl⟩

/-- Settles O28, from the effects a command can have. -/
theorem commandFrames : Obligations.CommandFrames := by
  intro i s t ht
  have he := CommandEffect.of_exec ht
  obtain ⟨hpc, hpending, hreads⟩ := he.outside
  refine ⟨hpc, hpending, hreads, ?_, ?_, ?_, fun hi => he.keeps_data_of_ne_accepting (by simpa using hi)⟩
  · rintro rfl
    cases ht
    exact ⟨rfl, rfl⟩
  · rintro b rfl
    exact he.addByte_keeps_dout
  · rintro rfl
    exact he.digest_keeps_bitcount

theorem CommandEffect.h_written {d : Except IllegalWord Instr} {s t : State} (he : CommandEffect d s t)
    (hne : t.h ≠ s.h) :
    d = .ok .init ∨ (∃ b, d = .ok (.addByte b) ∧ s.phase = .accepting ∧ s.buf.length = 63) ∨
      (d = .ok .digest ∧ s.phase = .accepting) := by
  cases he with
  | constructed hd => exact .inl hd
  | compressed b _ hd hp hl => exact .inr (.inl ⟨b, hd, hp, hl⟩)
  | published _ hd hp => exact .inr (.inr ⟨hd, hp⟩)
  | buffered | overlong | misused | illegal | ignored => exact absurd rfl hne

/-- Settles O29. -/
theorem hashStateHasNoOtherWriter : Obligations.HashStateHasNoOtherWriter := by
  intro s t ht hne
  obtain ⟨e, rest, hp, ⟨hr, -⟩ | ⟨w, vs, hw, he⟩⟩ := step_writer (f := State.h) (fun _ _ => rfl) ht hne
  · exact ⟨e, rest, hp, .inl hr⟩
  · exact ⟨e, rest, hp, .inr ⟨w, hw, he.h_written hne⟩⟩

theorem CommandEffect.dout_written {d : Except IllegalWord Instr} {s t : State} (he : CommandEffect d s t)
    (hne : t.dout ≠ s.dout) :
    (d = .ok .init ∧ t.dout = Words8.zero) ∨
      (d = .ok .digest ∧ s.phase = .accepting ∧ t.dout = t.h ∧ t.phase = .finalized) := by
  cases he with
  | constructed hd => exact .inl ⟨hd, rfl⟩
  | published _ hd hp => exact .inr ⟨hd, hp, rfl, rfl⟩
  | buffered | compressed | overlong | misused | illegal | ignored => exact absurd rfl hne

/-- Settles O30. -/
theorem doutHasNoOtherWriter : Obligations.DoutHasNoOtherWriter := by
  intro s t ht hne
  obtain ⟨e, rest, hp, ⟨hr, u, rfl⟩ | ⟨w, vs, hw, he⟩⟩ := step_writer (f := State.dout) (fun _ _ => rfl) ht hne
  · exact ⟨e, rest, hp, .inl ⟨hr, rfl⟩⟩
  · obtain hinit | hdigest := he.dout_written hne
    · exact ⟨e, rest, hp, .inr (.inl ⟨w, hw, hinit⟩)⟩
    · exact ⟨e, rest, hp, .inr (.inr ⟨w, hw, hdigest⟩)⟩

theorem CommandEffect.bitcount_written {d : Except IllegalWord Instr} {s t : State} (he : CommandEffect d s t)
    (hne : t.bitcount ≠ s.bitcount) :
    (d = .ok .init ∧ t.bitcount = 0#64) ∨
      ∃ b, d = .ok (.addByte b) ∧ s.phase = .accepting ∧ t.bitcount.toNat = (s.bitcount.toNat + 8) % 2 ^ 64 := by
  cases he with
  | constructed hd => exact .inl ⟨hd, rfl⟩
  | buffered b hd hp | compressed b _ hd hp => exact .inr ⟨b, hd, hp, BitVec.toNat_add _ _⟩
  | published | overlong | misused | illegal | ignored => exact absurd rfl hne

/-- Settles O31. -/
theorem bitcountHasNoOtherWriter : Obligations.BitcountHasNoOtherWriter := by
  intro s t ht hne
  obtain ⟨e, rest, hp, ⟨hr, u, rfl⟩ | ⟨w, vs, hw, he⟩⟩ := step_writer (f := State.bitcount) (fun _ _ => rfl) ht hne
  · exact ⟨e, rest, hp, .inl ⟨hr, rfl⟩⟩
  · obtain hinit | ⟨b, hadd⟩ := he.bitcount_written hne
    · exact ⟨e, rest, hp, .inr (.inl ⟨w, hw, hinit⟩)⟩
    · exact ⟨e, rest, hp, .inr (.inr ⟨w, b, hw, hadd⟩)⟩

end Sys2Proof.Machine
end

section
/-! STATUS and what the host reads (10 R27, R29, R31; 20 R39-R43; 70 R131). -/

namespace Sys2Proof.Machine

open Sys2Proof.Safety

/-! ### STATUS -/

/-- The fields of STATUS put together as 10 R27 puts them. -/
def packStatus (busy err : Bool) (cause : BitVec 3) (phase : BitVec 2) : Word :=
  (bitWord busy <<< 6) ||| (cause.setWidth 32 <<< 3) ||| (bitWord err <<< 2) ||| phase.setWidth 32

theorem statusWord_eq_packStatus (busy : Bool) (s : State) :
    statusWord busy s = packStatus busy s.err s.cause.code s.phase.code := rfl

theorem packStatus_fields : ∀ (busy err : Bool) (cause : BitVec 3) (phase : BitVec 2),
    (packStatus busy err cause phase).extractLsb' 0 2 = phase ∧
    (packStatus busy err cause phase).getLsbD 2 = err ∧
    (packStatus busy err cause phase).extractLsb' 3 3 = cause ∧
    (packStatus busy err cause phase).getLsbD 6 = busy ∧
    (packStatus busy err cause phase).extractLsb' 7 25 = 0#25 ∧
    (packStatus busy err cause phase).toNat = 64 * busy.toNat + 8 * cause.toNat + 4 * err.toNat + phase.toNat := by
  decide

theorem Phase.code_ne_three (p : Phase) : p.code ≠ 3#2 := by cases p <;> decide

theorem Phase.code_eq_one_iff (p : Phase) : p.code = 1#2 ↔ p = .finalized := by cases p <;> decide

theorem Cause.code_eq_zero_iff (c : Cause) : c.code = 0#3 ↔ c = .none := by cases c <;> decide

theorem Cause.code_lt_four (c : Cause) : c.code < 4#3 := by cases c <;> decide

/-- Settles O37: no field of STATUS overlaps another, and each holds its code. -/
theorem statusLayout : Obligations.StatusLayout := by
  intro busy s
  obtain ⟨hphase, herr, hcause, hbusy, hreserved, hvalue⟩ := packStatus_fields busy s.err s.cause.code s.phase.code
  rw [statusWord_eq_packStatus]
  refine ⟨hphase, herr, hcause, hbusy, hreserved, hvalue, ?_, ?_⟩
  · rw [hphase]
    exact s.phase.code_ne_three
  · rw [hcause]
    exact s.cause.code_lt_four

/-- STATUS reads 1 exactly in FINALIZED with no fault recorded. -/
theorem statusWord_eq_one_iff (s : State) :
    statusWord false s = 0x00000001#32 ↔ s.phase = .finalized ∧ s.err = false ∧ s.cause = .none := by
  constructor
  · intro hone
    obtain ⟨hphase, herr, hcause, -⟩ := packStatus_fields false s.err s.cause.code s.phase.code
    rw [← statusWord_eq_packStatus, hone] at hphase herr hcause
    exact ⟨s.phase.code_eq_one_iff.1 hphase.symm, herr.symm, s.cause.code_eq_zero_iff.1 hcause.symm⟩
  · rintro ⟨hphase, herr, hcause⟩
    rw [statusWord, hphase, herr, hcause]
    rfl

/-- Settles O36: by the invariant no cause is recorded where ERR is 0. -/
theorem successIsVisibleInStatus : Obligations.SuccessIsVisibleInStatus := by
  rintro s ⟨-, -, -, hrecord, -⟩
  rw [statusWord_eq_one_iff, ← hrecord]
  exact ⟨fun ⟨herr, hphase⟩ => ⟨hphase, herr, herr⟩, fun ⟨hphase, herr, _⟩ => ⟨herr, hphase⟩⟩

/-! ### The digest bytes -/

theorem words8Bytes_eq_map (x : Words8) : words8Bytes x = (List.finRange 32).map (digestByte x) := rfl

/-- Settles O45: both the serialisation and the formula take byte 3 - k mod 4 of word k div 4. -/
theorem digestBytesAreBigEndian : Obligations.DigestBytesAreBigEndian := by
  intro x
  refine ⟨rfl, fun k => ⟨?_, ?_⟩⟩
  · simp [words8Bytes_eq_map]
  · have hbit : 24 - 8 * (k.val % 4) = 8 * (3 - k.val % 4) := by omega
    rw [digestByte, hbit, toNat_extractLsb'_byte]

/-! ### The values of reads -/

theorem Words8.get_eq_getD (x : Words8) (j : Fin 8) : x.get j = x.toList.getD j.val 0#32 := by
  fin_cases j <;> rfl

theorem readValue_dout (busy : Bool) (j : Fin 8) (s : State) :
    readValue busy (.dout j) s = s.dout.toList.getD j.val 0#32 := Words8.get_eq_getD s.dout j

theorem readValue_window (busy : Bool) {k : Nat} (hk : k < 16) (s : State) :
    readValue busy (.window (4 * k) .word) s =
      if k = 0 then 0#32 else if k = 1 then statusWord busy s else s.dout.toList.getD (k - 2) 0#32 := by
  interval_cases k <;> rfl

/-- What a read can see of a state (10 R31), with what the host has read before. -/
structure SameView (s₁ s₂ : State) : Prop where
  phase : s₁.phase = s₂.phase
  err : s₁.err = s₂.err
  cause : s₁.cause = s₂.cause
  dout : s₁.dout = s₂.dout
  hostReads : s₁.hostReads = s₂.hostReads

theorem SameView.statusWord_eq {s₁ s₂ : State} (hv : SameView s₁ s₂) (busy : Bool) :
    statusWord busy s₁ = statusWord busy s₂ := by
  rw [statusWord, hv.phase, hv.err, hv.cause, ← statusWord]

theorem SameView.readValue_eq {s₁ s₂ : State} (hv : SameView s₁ s₂) (busy : Bool) (r : HostRead) :
    readValue busy r s₁ = readValue busy r s₂ := by
  cases r with
  | status => exact hv.statusWord_eq busy
  | dout j => rw [readValue, readValue, hv.dout]
  | window offset size => simp only [readValue, windowWord, hv.statusWord_eq busy, hv.dout]

theorem SameView.record {s₁ s₂ : State} (hv : SameView s₁ s₂) (v : Word) : SameView (record v s₁) (record v s₂) :=
  ⟨hv.phase, hv.err, hv.cause, hv.dout, by simp [hv.hostReads]⟩

/-- Two outcomes that the host cannot tell apart. -/
inductive AlikeOutcome : Host.Outcome State Fault Refusal → Host.Outcome State Fault Refusal → Prop
  | next {t₁ t₂ : State} (hv : SameView t₁ t₂) : AlikeOutcome (.next t₁) (.next t₂)
  | fault (f : Fault) : AlikeOutcome (.fault f) (.fault f)
  | refused (f : Refusal) : AlikeOutcome (.refused f) (.refused f)

theorem AlikeOutcome.andThen {o₁ o₂ : Host.Outcome State Fault Refusal} {k : State → Host.Outcome State Fault Refusal}
    (ho : AlikeOutcome o₁ o₂) (hk : ∀ {t₁ t₂}, SameView t₁ t₂ → AlikeOutcome (k t₁) (k t₂)) :
    AlikeOutcome (andThen o₁ k) (andThen o₂ k) := by
  cases ho with
  | next hv => exact hk hv
  | fault f => exact .fault f
  | refused f => exact .refused f

/-- Whether an access to the window goes on does not depend on the state. -/
theorem windowAccess_alike (offset : Nat) (size : AccessSize) {k : State → Host.Outcome State Fault Refusal}
    {s₁ s₂ : State} (hk : AlikeOutcome (k s₁) (k s₂)) :
    AlikeOutcome (windowAccess offset size k s₁) (windowAccess offset size k s₂) := by
  unfold windowAccess
  split
  · exact .fault _
  · split
    · exact .refused _
    · exact hk

theorem SameView.hostRead_alike {s₁ s₂ : State} (hv : SameView s₁ s₂) (busy : Bool) (r : HostRead) :
    AlikeOutcome (hostRead busy r s₁) (hostRead busy r s₂) := by
  have hrecord : AlikeOutcome (.next (Machine.record (readValue busy r s₁) s₁))
      (.next (Machine.record (readValue busy r s₂) s₂)) := by
    rw [hv.readValue_eq busy r]
    exact .next (hv.record _)
  cases r with
  | status | dout => exact hrecord
  | window offset size => exact windowAccess_alike offset size hrecord

theorem SameView.hostReadAll_alike {s₁ s₂ : State} (hv : SameView s₁ s₂) (busy : Bool) (rs : List HostRead) :
    AlikeOutcome (hostReadAll busy rs s₁) (hostReadAll busy rs s₂) := by
  induction rs generalizing s₁ s₂ with
  | nil => exact .next hv
  | cons r rest ih => exact (hv.hostRead_alike busy r).andThen ih

/-- Settles O43: every read takes a view to a view, and a read that stops does so in every state. -/
theorem hiddenStateIsInvisibleToReads : Obligations.HiddenStateIsInvisibleToReads := by
  intro busy rs s₁ s₂ hphase herr hcause hdout hreads
  have halike := SameView.hostReadAll_alike ⟨hphase, herr, hcause, hdout, hreads⟩ busy rs
  generalize hostReadAll busy rs s₁ = o₁ at halike ⊢
  generalize hostReadAll busy rs s₂ = o₂ at halike ⊢
  cases halike with
  | next hv =>
    refine ⟨?_, nofun, nofun⟩
    rintro t ⟨⟩
    exact ⟨_, rfl, hv.hostReads.symm⟩
  | fault f => exact ⟨nofun, fun _ h => h, nofun⟩
  | refused f => exact ⟨nofun, nofun, fun _ h => h⟩

/-- Taking the event changes nothing a read can see. -/
theorem readValue_takeEvent (busy : Bool) (r : HostRead) (rest : List HostEvent) (s : State) :
    readValue busy r (takeEvent rest s) = readValue busy r s :=
  SameView.readValue_eq ⟨rfl, rfl, rfl, rfl, rfl⟩ busy r

/-! ### Steps that read, and steps that deliver a command -/

/-- A read that the core answers records its value and takes the event (20 R42). -/
theorem step_read {s : State} {r : HostRead} {rest : List HostEvent} (hp : s.pending = .read r :: rest)
    (hr : readAllowed r = true) :
    step s = .next { s with pending := rest, hostReads := s.hostReads ++ [readValue false r s] } := by
  rw [step_event hp, hostEvent, hostRead_allowed false _ hr, readValue_takeEvent]
  rfl

theorem readAllowed_window {k : Nat} (hk : k < 16) : readAllowed (.window (4 * k) .word) = true := by
  simp only [readAllowed, decide_eq_true_eq, and_true]
  omega

/-- A write to a read-only or reserved offset leaves only the reads listed with it (20 R40; log entry 11). -/
theorem step_write_elsewhere {s : State} {k : Nat} {d : Word} {during : List HostRead} {rest : List HostEvent}
    (h1 : 1 ≤ k) (hk : k < 16) (hall : during.all readAllowed = true)
    (hp : s.pending = .write (.window (4 * k) .word d) during :: rest) :
    step s = .next { s with pending := rest, hostReads := s.hostReads ++ during.map (fun r => readValue false r s) } := by
  have hne : 4 * k ≠ 0 := by omega
  rw [step_event hp, hostEvent, hostWrite, windowAccess_allowed _ _ (by omega) (by omega), if_neg hne,
    hostReadAll_allowed false _ hall]
  simp only [readValue_takeEvent]
  rfl

/-- Settles O38. -/
theorem registerWindowMap : Obligations.RegisterWindowMap := by
  intro s rest
  refine ⟨fun k hk hp => ?_, fun k d during h1 hk hall hp => step_write_elsewhere h1 hk hall hp, rfl,
    fun j => readValue_dout false j s, fun k hk => readValue_window false hk s⟩
  rw [step_read hp (readAllowed_window hk), readValue_window false hk]

/-- Settles O41: an answered read is an allowed one, and it only takes its event and records a word. -/
theorem readsHaveNoSideEffects : Obligations.ReadsHaveNoSideEffects := by
  intro s rest
  refine ⟨fun t r hp ht => ?_, fun hp => step_read hp rfl, fun j hp => ?_⟩
  · rw [step_event hp] at ht
    obtain ⟨-, rfl⟩ := hostRead_eq_next ht
    rfl
  · rw [step_read hp rfl, readValue_dout]

/-- A command word that the host writes, through the port or at offset 0x00 of the window, with reads that the core answers in
its BUSY window, runs on the state in which its event is taken and those reads are made (20 R35, R40, R43). -/
theorem step_delivers {s : State} {w : Word} {during : List HostRead} {rest : List HostEvent}
    (hall : during.all readAllowed = true)
    (hp : s.pending = .write (.cmd w) during :: rest ∨ s.pending = .write (.window 0x00 .word w) during :: rest) :
    step s = executeWord w (atCommand rest (during.map fun r => readValue true r s) s) := by
  have hvalue : ∀ r, readValue true r (acceptCommand (takeEvent rest s)) = readValue true r s := fun r =>
    SameView.readValue_eq ⟨rfl, rfl, rfl, rfl, rfl⟩ true r
  have hdeliver : deliverCommand w during (takeEvent rest s) =
      executeWord w (atCommand rest (during.map fun r => readValue true r s) s) := by
    rw [deliverCommand, hostReadAll_allowed true _ hall, andThen_next]
    simp only [hvalue]
    rfl
  obtain hport | hwindow := hp
  · rw [step_event hport]
    exact hdeliver
  · rw [step_event hwindow, hostEvent, hostWrite, windowAccess_allowed _ _ (by decide) rfl, if_pos rfl]
    exact hdeliver

/-- Settles O6: the delivery of a decoded word with no reads in its BUSY window. -/
theorem stepRunsDecodedCommand : Obligations.StepRunsDecodedCommand := by
  intro s w i rest hd hp
  rw [step_delivers rfl hp, executeWord_of_ok _ hd]
  simp only [List.map_nil, atCommand, withReads_nil]
  rfl

/-- Settles O32: each field of the reset state by its definition, and STATUS of them. -/
theorem resetStateValues : Obligations.ResetStateValues := ⟨rfl, rfl⟩

end Sys2Proof.Machine
end

section
/-! The host's writes to CMD and the instances of a platform (20 R34-R36, R40, R43; 60 R113, R114, R121). -/

namespace Sys2Proof.Machine

open Sys2Proof.Safety

/-! ### Command words -/

/-- A command word written through the port, with no read in its BUSY window, runs with its event taken and the position
advanced (10 R20; 20 R35). -/
theorem step_commandWord {s : State} {w : Word} {rest : List HostEvent} (hp : s.pending = .write (.cmd w) [] :: rest) :
    step s = executeWord w { s with pending := rest, pc := s.pc + 1 } := by
  rw [step_delivers rfl (.inl hp), List.map_nil, atCommand, withReads_nil]
  rfl

theorem run_succ_of_step {M : Host.Core} {s t : M.State} (k : Nat) (ht : M.step s = .next t) :
    M.run (k + 1) s = M.run k t := by
  rw [Host.Core.run, ht]

/-- Settles O7: no command touches the position or the host's queue, so the second word is the next event of the state the first
leaves. -/
theorem commandsRunInIssueOrder : Obligations.CommandsRunInIssueOrder := by
  intro s w₁ w₂ rest hp
  obtain ⟨t, ht, he⟩ := executeWord_effect w₁ { s with pending := commandEvents [w₂] ++ rest, pc := s.pc + 1 }
  obtain ⟨hpc, hpending, -⟩ := he.outside
  obtain ⟨u, hu, -⟩ := executeWord_effect w₂ { t with pending := rest, pc := s.pc + 2 }
  have hfirst : step s = .next t := (step_commandWord hp).trans ht
  have hsecond : step t = .next u := by
    rw [step_commandWord hpending, hpc]
    exact hu
  refine ⟨t, u, ht, hu, ?_⟩
  calc Host.Core.run core 2 s
    _ = Host.Core.run core 1 t := run_succ_of_step (M := core) 1 hfirst
    _ = Host.Core.run core 0 u := run_succ_of_step (M := core) 0 hsecond
    _ = .next u := rfl

@[simp] theorem atCommand_phase (rest : List HostEvent) (vs : List Word) (s : State) :
    (atCommand rest vs s).phase = s.phase := rfl

/-- Settles O9: the prologue's answer to an illegal word, on the state in which its event is taken and its reads are made. -/
theorem stepAnswersIllegalWord : Obligations.StepAnswersIllegalWord := by
  intro s w during rest hillegal hall hp
  obtain ⟨e, hd⟩ := legal_eq_false_iff.1 hillegal
  rw [step_delivers hall hp, executeWord_of_error _ hd]
  refine ⟨fun hphase => ?_, fun hphase => ?_⟩ <;>
    rw [← atCommand_phase rest (during.map fun r => readValue true r s)] at hphase
  · rw [rejectIllegal_of_ne_faulted hphase]
    rfl
  · rw [rejectIllegal_faulted hphase]
    rfl

/-- Settles O11: the event of a second host has no other outcome. -/
theorem secondHostIsRefused : Obligations.SecondHostIsRefused := by
  intro s w rest hp
  rw [step_event hp, hostEvent]

/-! ### Reads inside a BUSY window -/

theorem packStatus_busy : ∀ (err : Bool) (cause : BitVec 3) (phase : BitVec 2),
    packStatus true err cause phase = packStatus false err cause phase ||| 0x40#32 := by
  decide

/-- STATUS inside a BUSY window is STATUS outside with bit 6 set (10 R27). -/
theorem statusWord_busy (s : State) : statusWord true s = statusWord false s ||| 0x40#32 :=
  packStatus_busy s.err s.cause.code s.phase.code

/-- Settles O42: the command runs on the state its reads leave, and each read sees the state before it. -/
theorem busyWindowReadsPreCommandValues : Obligations.BusyWindowReadsPreCommandValues := by
  intro s w i during rest hd hall hp
  refine ⟨?_, statusWord_busy s, fun j => readValue_dout true j s, fun k hk => ?_⟩
  · rw [step_delivers hall hp, executeWord_of_ok _ hd]
    rfl
  · rw [readValue_window true hk, statusWord_busy]

/-! ### The instances of a platform -/

/-- Writing one place of a list that holds something there writes that place only. -/
theorem set_changes_only {α : Type} {l : List α} {k : Nat} {a : α} (b : α) (hk : l[k]? = some a) :
    (l.set k b).length = l.length ∧ (l.set k b)[k]? = some b ∧ ∀ j, j ≠ k → (l.set k b)[j]? = l[j]? := by
  obtain ⟨hlt, -⟩ := List.getElem?_eq_some_iff.1 hk
  exact ⟨List.length_set, List.getElem?_set_self hlt, fun j hj => List.getElem?_set_ne hj.symm⟩

/-- Settles O60: a step and an access each write the state of the one core that acts. -/
theorem instancesAreIndependent : Obligations.InstancesAreIndependent := by
  intro k p q
  refine ⟨fun hq => ?_, fun addr event hq => ?_, fun addr event s t hs halone ht => ?_⟩
  · obtain ⟨s, t, hs, ht, rfl⟩ := onCore_eq_next.1 hq
    obtain ⟨hlength, hself, hothers⟩ := set_changes_only t hs
    exact ⟨hlength, ⟨s, t, hs, ht, hself⟩, hothers⟩
  · obtain ⟨j, s, t, hwindow, hs, ht, rfl⟩ := access_eq_next hq
    obtain ⟨hlength, hself, hothers⟩ := set_changes_only t hs
    exact ⟨j, (inWindow_iff addr j).1 hwindow, hlength, ⟨s, t, hs, ht, hself⟩, hothers⟩
  · obtain ⟨hk, -⟩ := List.getElem?_eq_some_iff.1 hs
    rw [access_of_unique event hk fun l hl => (inWindow_iff addr l).trans (halone l hl)]
    exact onCore_eq_next.2 ⟨s, t, hs, ht, rfl⟩

end Sys2Proof.Machine
end

section
/-! The fields of a command word and its decoding (30 R46-R52). -/

namespace Sys2Proof

/-! ### Words and their fields -/

@[simp] theorem Cmd32.ofWord_toWord (c : Cmd32) : Cmd32.ofWord c.toWord = c := by
  obtain ⟨op, rsv, data⟩ := c
  have hop : (op ++ rsv ++ data).extractLsb' 24 8 = op := calc
    _ = (op ++ rsv).extractLsb' 16 8 := BitVec.extractLsb'_append_eq_of_le (by decide)
    _ = op := BitVec.extractLsb'_append_eq_left
  have hrsv : (op ++ rsv ++ data).extractLsb' 8 16 = rsv := calc
    _ = (op ++ rsv).extractLsb' 0 16 := BitVec.extractLsb'_append_eq_of_le (by decide)
    _ = rsv := BitVec.extractLsb'_append_eq_right
  have hdata : (op ++ rsv ++ data).extractLsb' 0 8 = data := BitVec.extractLsb'_append_eq_right
  rw [Cmd32.ofWord, Cmd32.toWord, Cmd32.mk.injEq]
  exact ⟨hop, hrsv, hdata⟩

@[simp] theorem Cmd32.toWord_ofWord (w : Word) : (Cmd32.ofWord w).toWord = w := by
  have hhigh : w.extractLsb' 24 8 ++ w.extractLsb' 8 16 = w.extractLsb' 8 24 :=
    BitVec.extractLsb'_append_extractLsb'_eq_extractLsb' rfl
  calc
    _ = w.extractLsb' 8 24 ++ w.extractLsb' 0 8 := congrArg (· ++ w.extractLsb' 0 8) hhigh
    _ = w := BitVec.extractLsb'_append_extractLsb'

theorem Cmd32.toWord_injective : Function.Injective Cmd32.toWord :=
  Function.LeftInverse.injective Cmd32.ofWord_toWord

theorem Cmd32.toWord_surjective : Function.Surjective Cmd32.toWord :=
  Function.RightInverse.surjective Cmd32.toWord_ofWord

/-- A word is the number that its fields write, OP first. -/
theorem Cmd32.toNat_toWord (c : Cmd32) :
    c.toWord.toNat = c.op.toNat * 2 ^ 24 + c.rsv.toNat * 2 ^ 8 + c.data.toNat := by
  have hrsv := c.rsv.isLt
  have hdata := c.data.isLt
  simp only [Cmd32.toWord, BitVec.toNat_append]
  rw [← Nat.shiftLeft_add_eq_or_of_lt hrsv, ← Nat.shiftLeft_add_eq_or_of_lt hdata]
  simp only [Nat.shiftLeft_eq]
  omega

/-! ### Decoding -/

@[simp] theorem decode_toWord (c : Cmd32) : decode c.toWord = c.decode := by
  rw [decode, Cmd32.ofWord_toWord]

/-- What the decoder answers: the command whose fields these are, or the reason of 30 R51 why they are no command's. -/
inductive Cmd32.Decoding (c : Cmd32) : Except IllegalWord Instr → Prop
  | command {i : Instr} (hc : c = i.fields) : Decoding c (.ok i)
  | initFields (hop : c.op = 0x01#8) (hlow : ¬(c.rsv = 0#16 ∧ c.data = 0#8)) : Decoding c (.error .initFieldsNotZero)
  | addByteReserved (hop : c.op = 0x02#8) (hrsv : c.rsv ≠ 0#16) : Decoding c (.error .addByteReservedNotZero)
  | digestFields (hop : c.op = 0x03#8) (hlow : ¬(c.rsv = 0#16 ∧ c.data = 0#8)) : Decoding c (.error .digestFieldsNotZero)
  | unassigned (h1 : c.op ≠ 0x01#8) (h2 : c.op ≠ 0x02#8) (h3 : c.op ≠ 0x03#8) :
    Decoding c (.error (.unassignedOp c.op))

theorem Cmd32.decode_decoding (c : Cmd32) : c.Decoding c.decode := by
  obtain ⟨op, rsv, data⟩ := c
  unfold Cmd32.decode
  split_ifs with h1 hlow h2 hrsv h3 hlow
  · exact .command (by simp_all [Instr.fields])
  · exact .initFields h1 hlow
  · exact .command (by simp_all [Instr.fields])
  · exact .addByteReserved h2 hrsv
  · exact .command (by simp_all [Instr.fields])
  · exact .digestFields h3 hlow
  · exact .unassigned h1 h2 h3

theorem Instr.decode_fields (i : Instr) : i.fields.decode = .ok i := by
  cases i <;> rfl

theorem Cmd32.decode_eq_ok_iff {c : Cmd32} {i : Instr} : c.decode = .ok i ↔ c = i.fields := by
  refine ⟨fun h => ?_, fun h => h ▸ i.decode_fields⟩
  have hd := c.decode_decoding
  rw [h] at hd
  cases hd with
  | command hc => exact hc

theorem decode_eq_ok_iff {w : Word} {i : Instr} : decode w = .ok i ↔ w = encode i := by
  obtain ⟨c, rfl⟩ := Cmd32.toWord_surjective w
  rw [decode_toWord, Cmd32.decode_eq_ok_iff, encode, Cmd32.toWord_injective.eq_iff]

/-- Settles O1: both directions of the equivalence of decoding to a command and being its word. -/
theorem decodeIsInverseOfEncode : Obligations.DecodeIsInverseOfEncode :=
  ⟨fun _ => decode_eq_ok_iff.2 rfl, fun _ _ => decode_eq_ok_iff.1⟩

/-! ### Match and mask -/

/-- The mask 0xFFFFFF00 clears the operand byte and keeps OP and RSV. -/
theorem Cmd32.toWord_and_mask (c : Cmd32) : c.toWord &&& 0xFFFFFF00#32 = Cmd32.toWord { c with data := 0#8 } := by
  calc c.toWord &&& 0xFFFFFF00#32
    _ = (c.op ++ c.rsv ++ c.data) &&& (BitVec.allOnes 8 ++ BitVec.allOnes 16 ++ 0#8) := rfl
    _ = (c.op &&& BitVec.allOnes 8) ++ (c.rsv &&& BitVec.allOnes 16) ++ (c.data &&& 0#8) := by
      rw [BitVec.and_append, BitVec.and_append]
    _ = c.op ++ c.rsv ++ 0#8 := by rw [BitVec.and_allOnes, BitVec.and_allOnes, BitVec.and_zero]

theorem Cmd32.setWidth_toWord (c : Cmd32) : c.toWord.setWidth 8 = c.data := BitVec.setWidth_append_eq_right

/-- Settles O2: with all bits in the mask the match is the word itself; ADD_BYTE's match leaves DATA free. -/
theorem opcodeMapMatchAndMask : Obligations.OpcodeMapMatchAndMask := by
  intro w
  have hall : w &&& 0xFFFFFFFF#32 = w := BitVec.and_allOnes
  refine ⟨?_, fun b => ?_, ?_⟩
  · rw [hall, decode_eq_ok_iff]
    rfl
  · have hmatch : 0x02000000#32 = Cmd32.toWord { op := 0x02#8, rsv := 0#16, data := 0#8 } := rfl
    obtain ⟨⟨op, rsv, data⟩, rfl⟩ := Cmd32.toWord_surjective w
    rw [decode_toWord, Cmd32.decode_eq_ok_iff, Cmd32.toWord_and_mask, hmatch, Cmd32.toWord_injective.eq_iff,
      Cmd32.setWidth_toWord]
    simp [Instr.fields, and_assoc, eq_comm (a := b)]
  · rw [hall, decode_eq_ok_iff]
    rfl

/-! ### The legal words -/

theorem encode_injective : Function.Injective encode := fun _ _ h =>
  Except.ok.inj ((decode_eq_ok_iff.2 rfl).symm.trans (decode_eq_ok_iff.2 h))

theorem legal_iff_exists_encode {w : Word} : legal w = true ↔ ∃ i, w = encode i := by
  simp only [← decode_eq_ok_iff, legal]
  cases decode w <;> simp

@[simp] theorem legal_encode (i : Instr) : legal (encode i) = true := legal_iff_exists_encode.2 ⟨i, rfl⟩

/-- The commands, one for each legal word. -/
def allCommands : List Instr := .init :: .digest :: (List.finRange 256).map fun k => .addByte (.ofFin k)

theorem mem_allCommands (i : Instr) : i ∈ allCommands := by
  cases i with
  | init => simp [allCommands]
  | addByte b => simp [allCommands, show ∃ k, BitVec.ofFin k = b from ⟨b.toFin, rfl⟩]
  | digest => simp [allCommands]

theorem nodup_allCommands : allCommands.Nodup := by
  have hinj : Function.Injective fun k : Fin 256 => Instr.addByte (.ofFin k) := fun j k h =>
    BitVec.ofFin.inj (Instr.addByte.inj h)
  simp [allCommands, List.Nodup.map hinj (List.nodup_finRange 256)]

theorem mem_map_encode_allCommands {w : Word} : w ∈ allCommands.map encode ↔ ∃ i, w = encode i := by
  simp [mem_allCommands, eq_comm]

/-- The words of ADD_BYTE are the numbers from 0x02000000 to 0x020000FF. -/
theorem exists_encode_addByte_iff {w : Word} :
    (∃ b, w = encode (.addByte b)) ↔ 0x02000000 ≤ w.toNat ∧ w.toNat ≤ 0x020000FF := by
  have hvalue (b : Byte) : (encode (.addByte b)).toNat = 0x02000000 + b.toNat := by
    simp [encode, Cmd32.toNat_toWord, Instr.fields]
  constructor
  · rintro ⟨b, rfl⟩
    have := hvalue b
    have := b.isLt
    omega
  · intro ⟨hlow, hhigh⟩
    refine ⟨BitVec.ofNat 8 (w.toNat - 0x02000000), BitVec.eq_of_toNat_eq ?_⟩
    rw [hvalue, BitVec.toNat_ofNat]
    omega

/-- Settles O3: the legal words are the words of the 258 commands, which the encoder keeps apart. -/
theorem legalWordsAreExactly258 : Obligations.LegalWordsAreExactly258 := by
  refine ⟨allCommands.map encode, by simp [allCommands], nodup_allCommands.map encode_injective,
    fun w => ?_, fun w => ?_⟩
  · rw [legal_iff_exists_encode, mem_map_encode_allCommands]
  · rw [mem_map_encode_allCommands, ← exists_encode_addByte_iff]
    constructor
    · rintro ⟨_ | b | _, rfl⟩
      · exact .inl rfl
      · exact .inr (.inl ⟨b, rfl⟩)
      · exact .inr (.inr rfl)
    · rintro (rfl | ⟨b, rfl⟩ | rfl)
      · exact ⟨.init, rfl⟩
      · exact ⟨.addByte b, rfl⟩
      · exact ⟨.digest, rfl⟩

/-! ### The classes of illegal words -/

/-- Which fields give each reason of an illegal word (30 R51). -/
theorem Cmd32.decode_eq_error_iff (c : Cmd32) :
    ((∃ op, c.decode = .error (.unassignedOp op)) ↔ c.op ≠ 0x01#8 ∧ c.op ≠ 0x02#8 ∧ c.op ≠ 0x03#8) ∧
    (c.decode = .error .initFieldsNotZero ↔ c.op = 0x01#8 ∧ ¬(c.rsv = 0#16 ∧ c.data = 0#8)) ∧
    (c.decode = .error .addByteReservedNotZero ↔ c.op = 0x02#8 ∧ c.rsv ≠ 0#16) ∧
    (c.decode = .error .digestFieldsNotZero ↔ c.op = 0x03#8 ∧ ¬(c.rsv = 0#16 ∧ c.data = 0#8)) := by
  have hd := c.decode_decoding
  generalize c.decode = d at hd
  cases hd with
  | @command i hc =>
    subst hc
    cases i <;> simp [Instr.fields]
  | initFields hop hlow => simp [hop, hlow]
  | addByteReserved hop hrsv => simp [hop, hrsv]
  | digestFields hop hlow => simp [hop, hlow]
  | unassigned h1 h2 h3 => simp [h1, h2, h3]

theorem Cmd32.toNat_toWord_op (c : Cmd32) : c.toWord.toNat / 2 ^ 24 = c.op.toNat := by
  have := c.toNat_toWord
  have := c.rsv.isLt
  have := c.data.isLt
  omega

theorem Cmd32.toNat_toWord_rsv (c : Cmd32) : c.toWord.toNat / 2 ^ 8 % 2 ^ 16 = c.rsv.toNat := by
  have := c.toNat_toWord
  have := c.rsv.isLt
  have := c.data.isLt
  omega

theorem Cmd32.toNat_toWord_low_eq_zero_iff (c : Cmd32) :
    c.toWord.toNat % 2 ^ 24 = 0 ↔ c.rsv = 0#16 ∧ c.data = 0#8 := by
  have := c.toNat_toWord
  have := c.rsv.isLt
  have := c.data.isLt
  rw [BitVec.toNat_eq, BitVec.toNat_eq, BitVec.toNat_ofNat, BitVec.toNat_ofNat]
  omega

/-- Settles O4: the quotients and remainders of the word are its fields, and the fields decide the class. -/
theorem illegalWordClasses : Obligations.IllegalWordClasses := by
  intro w
  obtain ⟨c, rfl⟩ := Cmd32.toWord_surjective w
  obtain ⟨hop, hinit, hadd, hdigest⟩ := c.decode_eq_error_iff
  refine ⟨?_, ?_, ?_, ?_, Machine.legal_eq_false_iff⟩ <;> rw [decode_toWord]
  · rw [hop, c.toNat_toWord_op]
    simp [BitVec.toNat_eq]
  · rw [hinit, c.toNat_toWord_op, Ne, c.toNat_toWord_low_eq_zero_iff, BitVec.toNat_eq]
    rfl
  · rw [hadd, c.toNat_toWord_op, c.toNat_toWord_rsv, Ne, BitVec.toNat_eq, BitVec.toNat_eq]
    rfl
  · rw [hdigest, c.toNat_toWord_op, Ne, c.toNat_toWord_low_eq_zero_iff, BitVec.toNat_eq]
    rfl

end Sys2Proof
end

section
/-! The assembler: which words a stream of lines becomes, and when it is an error (30 R54, R55; 42 R88). -/

namespace Sys2Proof.Machine

open Sys2Proof.Safety

/-- A stream assembles to the words of its commands, in order, unless one of its operands is out of range. -/
theorem assemble_eq (ls : List AsmLine) :
    assemble ls = if ls.all AsmLine.wf then some ((ls.flatMap AsmLine.commands).map encode) else none := by
  induction ls with
  | nil => rfl
  | cons l rest ih =>
    rw [assemble, ih, assembleLine]
    by_cases hl : l.wf = true <;> by_cases hrest : rest.all AsmLine.wf = true <;> simp [hl, hrest]

theorem assemble_eq_none_of_mem {ls : List AsmLine} {l : AsmLine} (hmem : l ∈ ls) (hl : l.wf = false) :
    assemble ls = none := by
  have hall : ls.all AsmLine.wf = false := List.all_eq_false.2 ⟨l, hmem, by simp [hl]⟩
  rw [assemble_eq, hall]
  rfl

theorem legal_of_mem_assemble {ls : List AsmLine} {ws : List Word} (hws : assemble ls = some ws) {w : Word}
    (hw : w ∈ ws) : legal w = true := by
  rw [assemble_eq] at hws
  obtain ⟨-, hcommands⟩ := Option.ite_none_right_eq_some.1 hws
  obtain rfl := Option.some.inj hcommands
  obtain ⟨i, -, rfl⟩ := List.mem_map.1 hw
  exact legal_encode i

theorem assembleText_of_lines {text : List Char} {ls : List (List AsmLine)}
    (hls : (splitLines [] text).mapM parseLine = some ls) : assembleText text = assemble ls.flatten := by
  rw [assembleText, hls]

theorem assembleText_eq_some {text : List Char} {ws : List Word} (hws : assembleText text = some ws) :
    ∃ ls : List AsmLine, assemble ls = some ws := by
  unfold assembleText at hws
  split at hws
  · exact ⟨_, hws⟩
  · cases hws

theorem AsmLine.wf_addByte_eq_false {v : Nat} (hv : 255 < v) : (AsmLine.addByte v).wf = false := by
  simpa [AsmLine.wf] using hv

theorem AsmLine.wf_addBytes_eq_false {v : Nat} {vs : List Nat} (hmem : v ∈ vs) (hv : 255 < v) :
    (AsmLine.addBytes vs).wf = false :=
  List.all_eq_false.2 ⟨v, hmem, by simpa using hv⟩

/-- Settles O58: every word comes from the encoder, and one line out of range fails the stream that holds it. -/
theorem assemblerNeverEmitsIllegalWord : Obligations.AssemblerNeverEmitsIllegalWord := by
  refine ⟨fun text ws hws w hw => ?_, fun v hv before after => ?_, fun v vs hmem hv before after => ?_,
    fun text ls l hls hmem hl => ?_⟩
  · obtain ⟨ls, hls⟩ := assembleText_eq_some hws
    exact legal_of_mem_assemble hls hw
  · exact assemble_eq_none_of_mem List.mem_append_cons_self (AsmLine.wf_addByte_eq_false hv)
  · exact assemble_eq_none_of_mem List.mem_append_cons_self (AsmLine.wf_addBytes_eq_false hmem hv)
  · rw [assembleText_of_lines hls]
    exact assemble_eq_none_of_mem hmem hl

/-! ### ADD_BYTES -/

/-- A sequence of bytes is in range, and its words are one ADD_BYTE for each byte. -/
theorem assemble_addBytes (m : List Byte) :
    assemble [.addBytes (m.map BitVec.toNat)] = some (addBytesWords m) := by
  have hwf : (AsmLine.addBytes (m.map BitVec.toNat)).wf = true := by
    rw [AsmLine.wf, List.all_map, List.all_eq_true]
    exact fun b _ => decide_eq_true (Nat.le_of_lt_succ b.isLt)
  rw [assemble_eq]
  simp [hwf, AsmLine.commands, addBytesWords]

theorem AsmLine.wf_addBytes_append (u v : List Nat) :
    (AsmLine.addBytes (u ++ v)).wf = ((AsmLine.addBytes u).wf && (AsmLine.addBytes v).wf) := List.all_append

theorem AsmLine.commands_addBytes_append (u v : List Nat) :
    (AsmLine.addBytes (u ++ v)).commands = (AsmLine.addBytes u).commands ++ (AsmLine.addBytes v).commands :=
  List.map_append

/-- Settles O59: range and commands of a sequence are those of its parts, one after the other. -/
theorem addBytesChunkingGivesSameWords : Obligations.AddBytesChunkingGivesSameWords := by
  refine ⟨assemble_addBytes, assemble_addBytes [], fun u v before after => ?_⟩
  simp only [assemble_eq, List.all_append, List.all_cons, List.flatMap_append, List.flatMap_cons,
    AsmLine.wf_addBytes_append, AsmLine.commands_addBytes_append, Bool.and_assoc, List.append_assoc]

end Sys2Proof.Machine
end

section
/-! The round primitives bit by bit (40 R61-R68), and IV and K as roots of the first primes (40 R72). -/

namespace Sys2Proof.Machine

/-! ### Shifts, rotates and the sigmas -/

theorem shr_getLsbD (n : Nat) (x : Word) (i : Nat) :
    (shr n x).getLsbD i = (decide (i + n < 32) && x.getLsbD (i + n)) := by
  rw [shr, BitVec.getLsbD_ushiftRight, Nat.add_comm n i]
  by_cases hin : i + n < 32
  · simp [hin]
  · simp [hin, BitVec.getLsbD_of_ge x (i + n) (Nat.le_of_not_lt hin)]

theorem rotr_eq_rotateRight {n : Nat} (hn : n < 32) (x : Word) : rotr n x = x.rotateRight n := by
  rw [BitVec.rotateRight_def, Nat.mod_eq_of_lt hn, rotr]

theorem rotr_getLsbD {n i : Nat} (x : Word) (hi : i < 32) (hn : n < 32) :
    (rotr n x).getLsbD i = x.getLsbD ((i + n) % 32) := by
  rw [rotr_eq_rotateRight hn, BitVec.getLsbD_rotateRight, Nat.mod_eq_of_lt hn, Bool.cond_decide]
  split
  next hlow => rw [Nat.mod_eq_of_lt (by omega), Nat.add_comm]
  next hhigh =>
    have hwrap : (i + n) % 32 = i - (32 - n) := by omega
    simp [hi, hwrap]

/-- Settles O47: a sigma is an exclusive or of rotates and shifts, whose bits are known. -/
theorem rotatesShiftsAndSigmasByBit : Obligations.RotatesShiftsAndSigmasByBit := by
  intro x i hi
  refine ⟨fun n _ hn => ⟨rotr_getLsbD x hi hn, shr_getLsbD n x i⟩, ?_, ?_, ?_, ?_⟩
  · simp only [bigSigma0, BitVec.getLsbD_xor, rotr_getLsbD x hi, Nat.reduceLT]
  · simp only [bigSigma1, BitVec.getLsbD_xor, rotr_getLsbD x hi, Nat.reduceLT]
  · have hbound : i + 3 < 32 ↔ i < 29 := by omega
    simp only [smallSigma0, BitVec.getLsbD_xor, rotr_getLsbD x hi, shr_getLsbD, Nat.reduceLT, hbound]
  · have hbound : i + 10 < 32 ↔ i < 22 := by omega
    simp only [smallSigma1, BitVec.getLsbD_xor, rotr_getLsbD x hi, shr_getLsbD, Nat.reduceLT, hbound]

/-! ### Choose and majority -/

theorem ch_getLsbD (x y z : Word) {i : Nat} (hi : i < 32) :
    (ch x y z).getLsbD i = if x.getLsbD i then y.getLsbD i else z.getLsbD i := by
  simp only [ch, BitVec.getLsbD_xor, BitVec.getLsbD_and, BitVec.getLsbD_not, hi]
  cases x.getLsbD i
  case false => simp
  case true => simp

/-- Of three bits at least two are 1 exactly when the exclusive or of their pairwise conjunctions is 1. -/
theorem xor_and_eq_two_le_toNat_add : ∀ a b c : Bool,
    ((a && b) ^^ (a && c) ^^ (b && c)) = decide (2 ≤ a.toNat + b.toNat + c.toNat) := by
  decide

theorem maj_getLsbD (x y z : Word) (i : Nat) :
    (maj x y z).getLsbD i = decide (2 ≤ (x.getLsbD i).toNat + (y.getLsbD i).toNat + (z.getLsbD i).toNat) := by
  simp only [maj, BitVec.getLsbD_xor, BitVec.getLsbD_and, xor_and_eq_two_le_toNat_add]

/-- Settles O48: x's bit selects the term of Ch, and Maj is a matter of three bits. -/
theorem chooseAndMajorityByBit : Obligations.ChooseAndMajorityByBit :=
  fun x y z i hi => ⟨ch_getLsbD x y z hi, maj_getLsbD x y z i⟩

/-! ### The first 64 primes and the constants -/

/-- The first 64 primes (40 R72), the last of them 311. -/
def firstPrimes : List Nat :=
  [2, 3, 5, 7, 11, 13, 17, 19, 23, 29, 31, 37, 41, 43, 47, 53, 59, 61, 67, 71, 73, 79, 83, 89, 97, 101, 103, 107, 109, 113,
   127, 131, 137, 139, 149, 151, 157, 163, 167, 173, 179, 181, 191, 193, 197, 199, 211, 223, 227, 229, 233, 239, 241, 251,
   257, 263, 269, 271, 277, 281, 283, 293, 307, 311]

/-- `p` is at least 2 and has no divisor from 2 up to its square root, as far as divisors below 18 show. -/
abbrev PassesTrialDivision (p : Nat) : Prop := 2 ≤ p ∧ ∀ m < 18, 2 ≤ m → m * m ≤ p → ¬ m ∣ p

theorem prime_iff_passesTrialDivision {p : Nat} (hp : p < 18 * 18) : p.Prime ↔ PassesTrialDivision p := by
  rw [Nat.prime_def_le_sqrt]
  refine and_congr_right fun _ => ⟨fun h m _ hm hsq => h m hm (Nat.le_sqrt.2 hsq), fun h m hm hsq => ?_⟩
  have hmm : m * m ≤ p := Nat.le_sqrt.1 hsq
  exact h m (Nat.mul_self_lt_mul_self_iff.1 (hmm.trans_lt hp)) hm hmm

/-- Trial division finds the primes of the list among the 312 numbers 0 to 311, taken as 24 runs of 13. -/
theorem mem_firstPrimes_iff_passesTrialDivision :
    ∀ (a : Fin 24) (b : Fin 13), 13 * a.val + b.val ∈ firstPrimes ↔ PassesTrialDivision (13 * a + b) := by decide

theorem le_of_mem_firstPrimes : ∀ p ∈ firstPrimes, p ≤ 311 := by decide

theorem mem_firstPrimes_iff (p : Nat) : p ∈ firstPrimes ↔ p.Prime ∧ p ≤ 311 := by
  by_cases hp : p ≤ 311
  · have hsieve := mem_firstPrimes_iff_passesTrialDivision ⟨p / 13, by omega⟩ ⟨p % 13, by omega⟩
    rw [Nat.div_add_mod] at hsieve
    rw [hsieve, prime_iff_passesTrialDivision (by omega), and_iff_left hp]
  · exact iff_of_false (fun hmem => hp (le_of_mem_firstPrimes p hmem)) (fun h => hp h.2)

theorem firstPrimes_pairwise_lt : firstPrimes.Pairwise (· < ·) := by decide

/-- The integer part of each root is below 7, since 311 is less than 7 cubed. -/
theorem iv_get_is_squareRoot_fraction : ∀ j : Fin 8, ∃ q < 7,
    (q * 2 ^ 32 + (iv.get j).toNat) ^ 2 ≤ firstPrimes.getD j 0 * 2 ^ 64 ∧
    firstPrimes.getD j 0 * 2 ^ 64 < (q * 2 ^ 32 + (iv.get j).toNat + 1) ^ 2 := by decide

theorem kAt_is_cubeRoot_fraction : ∀ t < 64, ∃ q < 7,
    (q * 2 ^ 32 + (kAt t).toNat) ^ 3 ≤ firstPrimes.getD t 0 * 2 ^ 96 ∧
    firstPrimes.getD t 0 * 2 ^ 96 < (q * 2 ^ 32 + (kAt t).toNat + 1) ^ 3 := by decide

/-- Settles O49: the list is all primes up to 311, and each entry is checked against its root's bounds. -/
theorem constantsAreRootsOfPrimes : Obligations.ConstantsAreRootsOfPrimes := by
  refine ⟨firstPrimes, rfl, mem_firstPrimes_iff, firstPrimes_pairwise_lt, fun j => ?_, fun t ht => ?_⟩
  · obtain ⟨q, -, hroot⟩ := iv_get_is_squareRoot_fraction j
    exact ⟨q, hroot⟩
  · obtain ⟨q, -, hroot⟩ := kAt_is_cubeRoot_fraction t ht
    exact ⟨q, hroot⟩

end Sys2Proof.Machine
end

section
/-! The compression function (41 R76-R84): block words, schedule, rounds, and the rolling window; DIGEST of an overlong block. -/

namespace Sys2Proof.Machine

/-! ### Blocks that are not 64 bytes (41 R82, 60 R112) -/

theorem compress_eq_some {blk : List Byte} (x : Words8) (hl : blk.length = 64) :
    compress x blk = some (feedForward x (finalVars x blk)) := by
  rw [compress, if_pos hl]

theorem compress_eq_none_iff (x : Words8) (blk : List Byte) : compress x blk = none ↔ blk.length ≠ 64 := by
  refine ⟨fun hnone hl => ?_, compress_of_length_ne x⟩
  obtain ⟨y, hy⟩ := compress_of_length x hl
  rw [hnone] at hy
  cases hy

theorem exec_digest_too_long {s : State} (hp : s.phase = .accepting) (hl : 64 ≤ s.buf.length) :
    exec .digest s = .next (raiseFault .blockLength s) := by
  rw [exec_digest_accepting hp, digestWork_too_long hl, commit_none]

/-- Settles O22: the body of DIGEST gives no work on such a buffer, so its commit is the fault entry alone. -/
theorem blockLengthFaultComputesNothing : Obligations.BlockLengthFaultComputesNothing :=
  ⟨compress_eq_none_iff, fun _ hp hl => exec_digest_too_long hp hl⟩

/-! ### Block words (41 R76) -/

theorem toNat_append_byte {w : Nat} (x : BitVec w) (b : Byte) : (x ++ b).toNat = x.toNat * 2 ^ 8 + b.toNat := by
  rw [BitVec.toNat_append, ← Nat.shiftLeft_add_eq_or_of_lt b.isLt, Nat.shiftLeft_eq]

theorem toNat_be32 (b0 b1 b2 b3 : Byte) :
    (be32 b0 b1 b2 b3).toNat = b0.toNat * 2 ^ 24 + b1.toNat * 2 ^ 16 + b2.toNat * 2 ^ 8 + b3.toNat := by
  simp only [be32, toNat_append_byte]
  omega

theorem blockWords_getD (blk : List Byte) {i : Nat} (hi : i < 16) : (blockWords blk).getD i 0#32 = be32At blk i := by
  simp [blockWords, hi]

/-- Settles O50: word i is BE32 of the bytes from 4i on, and each byte shifts those before it by 8 bits. -/
theorem blockWordsAreBigEndian : Obligations.BlockWordsAreBigEndian := by
  intro blk _
  refine ⟨blockWords_length blk, fun i hi => ?_⟩
  rw [blockWords_getD blk hi, be32At, toNat_be32]

/-! ### The schedule (41 R77) -/

/-- The last of the words that expandSchedule adds is made from all the others. -/
theorem expandSchedule_succ (n : Nat) (r : List Word) :
    expandSchedule (n + 1) r = nextScheduleWord (expandSchedule n r) :: expandSchedule n r := by
  induction n generalizing r with
  | zero => rfl
  | succ n ih => exact ih (nextScheduleWord r :: r)

/-- W[0..15+n], oldest first: the block's sixteen words and the next n, for every n (41 R77). -/
def scheduleUpTo (m : List Word) (n : Nat) : List Word := (expandSchedule n m.reverse).reverse

theorem schedule_eq_scheduleUpTo (m : List Word) : schedule m = scheduleUpTo m 48 := rfl

@[simp] theorem scheduleUpTo_zero (m : List Word) : scheduleUpTo m 0 = m := by simp [scheduleUpTo, expandSchedule]

@[simp] theorem scheduleUpTo_length (m : List Word) (n : Nat) : (scheduleUpTo m n).length = n + m.length := by
  simp [scheduleUpTo]

theorem scheduleUpTo_succ (m : List Word) (n : Nat) :
    scheduleUpTo m (n + 1) = scheduleUpTo m n ++ [nextScheduleWord (scheduleUpTo m n).reverse] := by
  simp [scheduleUpTo, expandSchedule_succ]

theorem scheduleUpTo_prefix (m : List Word) {n k : Nat} (hnk : n ≤ k) : scheduleUpTo m n <+: scheduleUpTo m k := by
  induction k, hnk using Nat.le_induction with
  | base => exact List.prefix_rfl
  | succ k _ ih =>
    rw [scheduleUpTo_succ]
    exact ih.trans (List.prefix_append _ _)

/-- Adding words leaves those already there as they are. -/
theorem scheduleUpTo_getD_of_le (m : List Word) {n k t : Nat} (hnk : n ≤ k) (ht : t < n + m.length) :
    (scheduleUpTo m k).getD t 0#32 = (scheduleUpTo m n).getD t 0#32 := by
  obtain ⟨rest, hrest⟩ := scheduleUpTo_prefix m hnk
  rw [← hrest, List.getD_append _ _ _ _ (by simpa using ht)]

/-- Each W[t] that both of two expansions hold is the same in both. -/
theorem scheduleUpTo_getD_eq (m : List Word) {n k t : Nat} (hn : t < n + m.length) (hk : t < k + m.length) :
    (scheduleUpTo m n).getD t 0#32 = (scheduleUpTo m k).getD t 0#32 := by
  obtain hnk | hkn := Nat.le_total n k
  · exact (scheduleUpTo_getD_of_le m hnk hn).symm
  · exact scheduleUpTo_getD_of_le m hkn hk

/-- The recurrence on words listed oldest first: with n + 16 words there, the next one is W[n + 16]. -/
theorem nextScheduleWord_reverse {l : List Word} {n : Nat} (hl : l.length = n + 16) :
    nextScheduleWord l.reverse = smallSigma1 (l.getD (n + 14) 0#32) + l.getD (n + 9) 0#32 +
      smallSigma0 (l.getD (n + 1) 0#32) + l.getD n 0#32 := by
  have hget : ∀ i j, i + j = 15 → l.reverse.getD i 0#32 = l.getD (n + j) 0#32 := by
    intro i j hij
    rw [List.getD_reverse i (by omega), show l.length - 1 - i = n + j by omega]
  rw [nextScheduleWord, hget 1 14 rfl, hget 6 9 rfl, hget 14 1 rfl, hget 15 0 rfl, Nat.add_zero n]

theorem schedule_getD_block {m : List Word} {t : Nat} (ht : t < m.length) :
    (schedule m).getD t 0#32 = m.getD t 0#32 := by
  rw [schedule_eq_scheduleUpTo, scheduleUpTo_getD_of_le m (Nat.zero_le 48) (by omega), scheduleUpTo_zero]

theorem schedule_getD_recurrence {m : List Word} (hm : m.length = 16) {n : Nat} (hn : n < 48) :
    (schedule m).getD (n + 16) 0#32 =
      smallSigma1 ((schedule m).getD (n + 14) 0#32) + (schedule m).getD (n + 9) 0#32 +
      smallSigma0 ((schedule m).getD (n + 1) 0#32) + (schedule m).getD n 0#32 := by
  have hlen : (scheduleUpTo m n).length = n + 16 := by rw [scheduleUpTo_length, hm]
  have hnew : (schedule m).getD (n + 16) 0#32 = nextScheduleWord (scheduleUpTo m n).reverse := by
    rw [schedule_eq_scheduleUpTo, scheduleUpTo_getD_of_le m (show n + 1 ≤ 48 by omega) (by omega), scheduleUpTo_succ]
    simp [hlen]
  have hold : ∀ t, t < n + 16 → (scheduleUpTo m n).getD t 0#32 = (schedule m).getD t 0#32 :=
    fun t ht => scheduleUpTo_getD_eq m (by omega) (by omega)
  rw [hnew, nextScheduleWord_reverse hlen, hold (n + 14) (by omega), hold (n + 9) (by omega), hold (n + 1) (by omega),
    hold n (by omega)]

/-- Settles O51: expansion only appends, and each appended word is made from the last sixteen. -/
theorem scheduleFollowsRecurrence : Obligations.ScheduleFollowsRecurrence := by
  intro m hm
  refine ⟨by rw [schedule_length, hm], fun t ht => schedule_getD_block (by omega), fun t h16 h64 => ?_⟩
  obtain ⟨n, rfl⟩ := Nat.exists_eq_add_of_le' h16
  exact schedule_getD_recurrence hm (by omega)

/-! ### The rounds (41 R78-R81) -/

/-- Settles O52: the sequence of working variables is roundsUpTo, whose steps are the rounds in increasing order. -/
theorem compressRunsSixtyFourRounds : Obligations.CompressRunsSixtyFourRounds := by
  intro x blk hl
  refine ⟨roundsUpTo (schedule (blockWords blk)) (Vars.ofWords8 x), rfl, fun t _ => ⟨_, _, rfl, rfl, rfl⟩, ?_⟩
  rw [compress_eq_some x hl, feedForward, finalVars]

/-! ### The rolling window (41 R84) -/

/-- Moved on from W[n..n+15], the window holds W[n+1..n+16]. -/
theorem rollWindow_drop_scheduleUpTo {m : List Word} (hm : m.length = 16) (n : Nat) :
    rollWindow ((scheduleUpTo m n).drop n) = (scheduleUpTo m (n + 1)).drop (n + 1) := by
  have hlen : (scheduleUpTo m n).length = n + 16 := by rw [scheduleUpTo_length, hm]
  have hget : ∀ i, ((scheduleUpTo m n).drop n).getD i 0#32 = (scheduleUpTo m n).getD (n + i) 0#32 := by simp
  rw [scheduleUpTo_succ, List.drop_append_of_le_length (by omega), nextScheduleWord_reverse hlen]
  simp only [rollWindow, List.tail_drop, hget, Nat.add_zero]

/-- The invariant of the rolling form: after n rounds the window is W[n..n+15] and the working variables are those of the rounds
over the whole schedule. -/
theorem rollRounds_eq {m : List Word} (hm : m.length = 16) (v : Vars) {n : Nat} (hn : n ≤ 64) :
    rollRounds m v n = ((scheduleUpTo m n).drop n, roundsUpTo (schedule m) v n) := by
  induction n with
  | zero => simp [rollRounds, roundsUpTo]
  | succ n ih =>
    have hword : ((scheduleUpTo m n).drop n).getD 0 0#32 = (schedule m).getD n 0#32 := by
      rw [schedule_eq_scheduleUpTo, ← scheduleUpTo_getD_eq m (n := n) (by omega) (by omega)]
      simp
    rw [rollRounds, ih (by omega)]
    simp only [rollWindow_drop_scheduleUpTo hm, hword, roundsUpTo, roundAt]

/-- Settles O53: on a 64-byte block the two forms end with the same working variables, and on any other both give nothing. -/
theorem rollingWindowGivesSameCompression : Obligations.RollingWindowGivesSameCompression := by
  intro x blk
  rw [compressRolling, rollRounds_eq (blockWords_length blk) _ le_rfl, compress, finalVars]

end Sys2Proof.Machine
end

section
/-! A message as its full blocks and the bytes after them, and its padded form (42 R89-R92). -/

namespace Sys2Proof.Safety

open Sys2Proof.Machine

/-! ### Full blocks and last bytes -/

@[simp] theorem fullBlocks_length (m : List Byte) : (fullBlocks m).length = m.length / 64 := by simp [fullBlocks]

@[simp] theorem lastBytes_length (m : List Byte) : (lastBytes m).length = m.length % 64 := by
  rw [lastBytes, List.length_drop]
  omega

theorem fullBlocks_of_lt {m : List Byte} (hm : m.length < 64) : fullBlocks m = [] := by
  rw [fullBlocks, Nat.div_eq_of_lt hm, List.range_zero, List.map_nil]

theorem lastBytes_of_lt {m : List Byte} (hm : m.length < 64) : lastBytes m = m := by
  rw [lastBytes, Nat.div_eq_of_lt hm, Nat.mul_zero, List.drop_zero]

theorem block_append_length_div {blk : List Byte} (m : List Byte) (hb : blk.length = 64) :
    (blk ++ m).length / 64 = m.length / 64 + 1 := by
  rw [List.length_append, hb]
  omega

theorem drop_block_append {blk : List Byte} (m : List Byte) (hb : blk.length = 64) (j : Nat) :
    (blk ++ m).drop (64 * (j + 1)) = m.drop (64 * j) := by
  rw [List.drop_append, List.drop_of_length_le (by omega), List.nil_append, hb, show 64 * (j + 1) - 64 = 64 * j by omega]

theorem fullBlocks_block_append {blk : List Byte} (m : List Byte) (hb : blk.length = 64) :
    fullBlocks (blk ++ m) = blk :: fullBlocks m := by
  have hfirst : ((blk ++ m).drop (64 * 0)).take 64 = blk := by simp [← hb]
  rw [fullBlocks, block_append_length_div m hb, List.range_succ_eq_map, List.map_cons, hfirst, List.map_map, fullBlocks]
  simp only [Function.comp_def, drop_block_append m hb]

theorem lastBytes_block_append {blk : List Byte} (m : List Byte) (hb : blk.length = 64) :
    lastBytes (blk ++ m) = lastBytes m := by
  rw [lastBytes, block_append_length_div m hb, drop_block_append m hb, lastBytes]

theorem fullBlocks_of_block {blk : List Byte} (hb : blk.length = 64) : fullBlocks blk = [blk] := by
  simpa [fullBlocks_of_lt] using fullBlocks_block_append [] hb

theorem lastBytes_of_block {blk : List Byte} (hb : blk.length = 64) : lastBytes blk = [] := by
  simpa [lastBytes_of_lt] using lastBytes_block_append [] hb

/-- Blocks in front of a message are its first blocks, and leave its last bytes as they are. -/
theorem fullBlocks_flatten_append {bs : List (List Byte)} (m : List Byte) (hbs : ∀ b ∈ bs, b.length = 64) :
    fullBlocks (bs.flatten ++ m) = bs ++ fullBlocks m ∧ lastBytes (bs.flatten ++ m) = lastBytes m := by
  induction bs with
  | nil => exact ⟨rfl, rfl⟩
  | cons b bs ih =>
    obtain ⟨hb, hbs⟩ := List.forall_mem_cons.1 hbs
    obtain ⟨hfull, hlast⟩ := ih hbs
    rw [List.flatten_cons, List.append_assoc, fullBlocks_block_append _ hb, lastBytes_block_append _ hb, hfull, hlast]
    exact ⟨rfl, rfl⟩

theorem fullBlocks_flatten {bs : List (List Byte)} (hbs : ∀ b ∈ bs, b.length = 64) : fullBlocks bs.flatten = bs := by
  simpa [fullBlocks_of_lt] using (fullBlocks_flatten_append [] hbs).1

theorem length_of_mem_fullBlocks {m blk : List Byte} (hb : blk ∈ fullBlocks m) : blk.length = 64 := by
  obtain ⟨j, hj, rfl⟩ := List.mem_map.1 hb
  have hj := List.mem_range.1 hj
  rw [List.length_take, List.length_drop]
  omega

/-- A message is its full blocks and the bytes after them (42 R89). -/
theorem flatten_fullBlocks_append_lastBytes (m : List Byte) : (fullBlocks m).flatten ++ lastBytes m = m := by
  induction hn : m.length / 64 generalizing m with
  | zero =>
    have hm : m.length < 64 := by omega
    rw [fullBlocks_of_lt hm, lastBytes_of_lt hm, List.flatten_nil, List.nil_append]
  | succ n ih =>
    have hb : (m.take 64).length = 64 := by rw [List.length_take]; omega
    have hrest : (m.drop 64).length / 64 = n := by rw [List.length_drop]; omega
    have hfull := fullBlocks_block_append (m.drop 64) hb
    have hlast := lastBytes_block_append (m.drop 64) hb
    rw [List.take_append_drop] at hfull hlast
    rw [hfull, hlast, List.flatten_cons, List.append_assoc, ih _ hrest, List.take_append_drop]

/-- Of a longer message the blocks already full stay, and the bytes after them begin what follows. -/
theorem fullBlocks_append (u v : List Byte) :
    fullBlocks (u ++ v) = fullBlocks u ++ fullBlocks (lastBytes u ++ v) ∧
    lastBytes (u ++ v) = lastBytes (lastBytes u ++ v) := by
  have hsplit := fullBlocks_flatten_append (lastBytes u ++ v) fun _ => length_of_mem_fullBlocks (m := u)
  rwa [← List.append_assoc, flatten_fullBlocks_append_lastBytes] at hsplit

theorem flatten_fullBlocks {m : List Byte} (hm : m.length % 64 = 0) : (fullBlocks m).flatten = m := by
  have hlast : lastBytes m = [] := List.length_eq_zero_iff.1 ((lastBytes_length m).trans hm)
  simpa [hlast] using flatten_fullBlocks_append_lastBytes m

/-! ### The padded message -/

theorem padZeros_fills (n : Nat) : (n + 1 + padZeros n) % 64 = 56 := by
  unfold padZeros
  omega

theorem padZeros_le {n k : Nat} (hk : (n + 1 + k) % 64 = 56) : padZeros n ≤ k := by
  unfold padZeros
  omega

theorem padZeros_mod (n : Nat) : padZeros (n % 64) = padZeros n := by rw [padZeros, Nat.mod_mod, padZeros]

theorem padZeros_of_le {n : Nat} (hn : n ≤ 55) : padZeros n = 55 - n := by
  unfold padZeros
  omega

theorem padZeros_of_ge {n : Nat} (h56 : 56 ≤ n) (h63 : n ≤ 63) : padZeros n = (63 - n) + 56 := by
  unfold padZeros
  omega

theorem paddedMessage_length (m : List Byte) : (paddedMessage m).length = m.length + 1 + padZeros m.length + 8 := by
  simp [paddedMessage]
  omega

theorem paddedMessage_length_mod (m : List Byte) : (paddedMessage m).length % 64 = 0 := by
  have := padZeros_fills m.length
  rw [paddedMessage_length]
  omega

/-- The padded message fills one block after the message's full blocks, or two where 56 or more bytes come after those. -/
theorem fullBlocks_paddedMessage_length (m : List Byte) :
    (fullBlocks (paddedMessage m)).length = m.length / 64 + 1 + if 56 ≤ m.length % 64 then 1 else 0 := by
  rw [fullBlocks_length, paddedMessage_length, padZeros]
  split
  · omega
  · omega

theorem zeros_add (j k : Nat) : zeros (j + k) = zeros j ++ zeros k := by
  rw [zeros, List.replicate_add, zeros, zeros]

/-- The padding of 42 R92 after a short buffer gives the blocks of the table of 42 R91. -/
theorem fullBlocks_pad {buf : List Byte} (c : BitVec 64) (hl : buf.length ≤ 63) :
    fullBlocks (buf ++ [padMarker] ++ zeros (padZeros buf.length) ++ be64Bytes c) = digestBlocks buf c := by
  have hblocks : ∀ b ∈ digestBlocks buf c, b.length = 64 := by
    unfold digestBlocks
    split
    · simp; omega
    · simp; omega
  have hflatten : (digestBlocks buf c).flatten = buf ++ [padMarker] ++ zeros (padZeros buf.length) ++ be64Bytes c := by
    unfold digestBlocks
    split
    next h55 => simp [padZeros_of_le h55]
    next h56 => simp [padZeros_of_ge (by omega) hl, zeros_add]
  rw [← hflatten, fullBlocks_flatten hblocks]

/-- The padded message's blocks are the message's full blocks and those that DIGEST makes of the bytes after them (42 R92). -/
theorem fullBlocks_paddedMessage (m : List Byte) :
    fullBlocks (paddedMessage m) =
      fullBlocks m ++ digestBlocks (lastBytes m) (BitVec.ofNat 64 (8 * m.length)) := by
  have hl : (lastBytes m).length ≤ 63 := by rw [lastBytes_length]; omega
  have hpad := fullBlocks_pad (BitVec.ofNat 64 (8 * m.length)) hl
  rw [lastBytes_length, padZeros_mod] at hpad
  rw [← hpad, paddedMessage, List.append_assoc, List.append_assoc, (fullBlocks_append m _).1, List.append_assoc,
    List.append_assoc]

/-! ### Blocks compressed one after another -/

theorem hashBlocks_cons {x y : Words8} {a : List Byte} (as : List (List Byte)) (hy : compress x a = some y) :
    hashBlocks x (a :: as) = hashBlocks y as := by
  rw [hashBlocks, hy]

theorem hashBlocks_append {x y : Words8} {as : List (List Byte)} (bs : List (List Byte)) (hy : hashBlocks x as = some y) :
    hashBlocks x (as ++ bs) = hashBlocks y bs := by
  induction as generalizing x with
  | nil => rw [List.nil_append, Option.some.inj hy]
  | cons a as ih =>
    cases hz : compress x a with
    | none => simp [hashBlocks, hz] at hy
    | some z =>
      rw [hashBlocks_cons as hz] at hy
      rw [List.cons_append, hashBlocks_cons _ hz, ih hy]

end Sys2Proof.Safety
end

section
/-! The three commands (42 R86-R94): their words, what each leaves, and the blocks it compresses (70 R136). -/

namespace Sys2Proof.Machine

open Sys2Proof.Safety

/-! ### INIT (42 R86) -/

theorem constructEngine_constructEngine (s : State) : constructEngine (constructEngine s) = constructEngine s := rfl

theorem statusWord_eq_zero {s : State} (hphase : s.phase = .accepting) (herr : s.err = false) (hcause : s.cause = .none) :
    statusWord false s = 0x00000000#32 := by
  rw [statusWord, hphase, herr, hcause]
  rfl

/-- Settles O12: INIT is the construction of the engine, whatever the phase. -/
theorem initConstructsFreshEngine : Obligations.InitConstructsFreshEngine := by
  refine ⟨fun w => decode_eq_ok_iff, fun s => ⟨exec_init s, ?_⟩⟩
  rintro t ⟨⟩
  exact ⟨by rw [exec_init, constructEngine_constructEngine], fun herr hcause => statusWord_eq_zero rfl herr hcause⟩

/-! ### ADD_BYTE (42 R87) -/

theorem toNat_encode_addByte (b : Byte) : (encode (.addByte b)).toNat = 0x02000000 + b.toNat := by
  simp [encode, Cmd32.toNat_toWord, Instr.fields]

theorem decode_eq_addByte_iff {w : Word} {b : Byte} : decode w = .ok (.addByte b) ↔ w.toNat = 0x02000000 + b.toNat := by
  rw [decode_eq_ok_iff, BitVec.toNat_eq, toNat_encode_addByte]

/-- Settles O14: the cases of ADD_BYTE's body, and the prologue's answers where it does not run. -/
theorem addByteIngestsOneByte : Obligations.AddByteIngestsOneByte := by
  intro s b
  refine ⟨fun w => decode_eq_addByte_iff, fun hp hl => ?_, fun hp hl => ?_, fun hp => exec_finalized nofun hp,
    fun hp => exec_faulted nofun hp⟩
  · rw [exec_addByte_accepting b hp, addByteWork_of_ne b hl]
    rfl
  · obtain ⟨x, hx, hwork⟩ := addByteWork_of_eq b hl
    rw [exec_addByte_accepting b hp, hwork]
    exact ⟨x, hx, rfl⟩

/-- The body of ADD_BYTE in one form: of the buffer with its byte, the full blocks are compressed and the bytes after them
stay. -/
theorem addByteWork_eq {s : State} (b : Byte) (hl : s.buf.length ≤ 63) :
    ∃ x, hashBlocks s.h (fullBlocks (s.buf ++ [b])) = some x ∧ addByteWork b s = some {
      h := x, buf := lastBytes (s.buf ++ [b]), bitcount := s.bitcount + 8#64, blocks := fullBlocks (s.buf ++ [b]) } := by
  by_cases h63 : s.buf.length = 63
  · have hblock : (s.buf ++ [b]).length = 64 := by simp [h63]
    obtain ⟨x, hx, hwork⟩ := addByteWork_of_eq b h63
    rw [fullBlocks_of_block hblock, lastBytes_of_block hblock, hashBlocks_cons [] hx]
    exact ⟨x, rfl, hwork⟩
  · have hshort : (s.buf ++ [b]).length < 64 := by simp; omega
    rw [fullBlocks_of_lt hshort, lastBytes_of_lt hshort]
    exact ⟨s.h, rfl, addByteWork_of_ne b h63⟩

/-! ### DIGEST (42 R90-R94) -/

theorem digestBlocks_short {s : State} (hl : s.buf.length ≤ 55) : digestBlocks s.buf s.bitcount = [oneBlock s] := by
  rw [digestBlocks, if_pos hl, oneBlock]

theorem digestBlocks_long {s : State} (hl : 56 ≤ s.buf.length) :
    digestBlocks s.buf s.bitcount = [firstBlock s, secondBlock s] := by
  rw [digestBlocks, if_neg (by omega), firstBlock, secondBlock]

/-- The body of DIGEST in one form: the blocks of the table of 42 R91 are compressed and the buffer is left empty. -/
theorem digestWork_eq {s : State} (hl : s.buf.length ≤ 63) :
    ∃ x, hashBlocks s.h (digestBlocks s.buf s.bitcount) = some x ∧ digestWork s = some {
      h := x, buf := [], bitcount := s.bitcount, blocks := digestBlocks s.buf s.bitcount } := by
  obtain h55 | h56 := Nat.lt_or_ge s.buf.length 56
  · obtain ⟨x, hx, hwork⟩ := digestWork_short (show s.buf.length ≤ 55 by omega)
    rw [digestBlocks_short (by omega), hashBlocks_cons [] hx]
    exact ⟨x, rfl, hwork⟩
  · obtain ⟨x, y, hx, hy, hwork⟩ := digestWork_long h56 hl
    rw [digestBlocks_long h56, hashBlocks_cons _ hx, hashBlocks_cons [] hy]
    exact ⟨y, rfl, hwork⟩

/-- Settles O15: the two paths of DIGEST's body, and the prologue's answers where it does not run. -/
theorem digestPadsAndPublishes : Obligations.DigestPadsAndPublishes := by
  refine ⟨fun w => decode_eq_ok_iff, fun s => ⟨fun hp h55 => ?_, fun hp h56 h63 => ?_,
    fun hp => exec_finalized nofun hp, fun hp => exec_faulted nofun hp⟩⟩
  · obtain ⟨x, hx, hwork⟩ := digestWork_short h55
    rw [exec_digest_accepting hp, hwork]
    exact ⟨x, hx, rfl⟩
  · obtain ⟨x, y, hx, hy, hwork⟩ := digestWork_long h56 h63
    rw [exec_digest_accepting hp, hwork]
    exact ⟨x, y, hx, hy, rfl⟩

/-- The digest of the empty message (42 R93). -/
def emptyDigest : Words8 :=
  ⟨0xe3b0c442#32, 0x98fc1c14#32, 0x9afbf4c8#32, 0x996fb924#32, 0x27ae41e4#32, 0x649b934c#32, 0xa495991b#32, 0x7852b855#32⟩

set_option maxRecDepth 2000 in
/-- The one evaluation of a whole block; its 48 schedule words and 64 rounds nest deeper than the default depth. -/
theorem compress_iv_empty : compress iv ([padMarker] ++ zeros 55 ++ be64Bytes 0#64) = some emptyDigest := by decide

theorem emptyBlock_eq : [padMarker] ++ zeros 55 ++ be64Bytes 0#64 = 0x80#8 :: List.replicate 63 0#8 := by decide

theorem oneBlock_constructEngine (s : State) :
    oneBlock (constructEngine s) = [padMarker] ++ zeros 55 ++ be64Bytes 0#64 := by
  simp [oneBlock]

/-- Settles O16: the fresh engine's one padded block, compressed from IV. -/
theorem emptyInputDigest : Obligations.EmptyInputDigest := by
  rintro s t ⟨⟩
  obtain ⟨x, hx, hwork⟩ := digestWork_short (s := constructEngine s) (Nat.zero_le 55)
  rw [oneBlock_constructEngine] at hx hwork
  obtain rfl := Option.some.inj (hx.symm.trans compress_iv_empty)
  rw [blocksCompressed, exec_digest_accepting (constructEngine_phase s), hwork, ← emptyBlock_eq]
  exact ⟨rfl, rfl⟩

/-! ### The blocks of a command word (70 R136) -/

theorem blocksCompressed_addByte {s : State} (b : Byte) (hl : s.buf.length ≤ 63) :
    blocksCompressed (.addByte b) s = some (fullBlocks (s.buf ++ [b])) := by
  obtain ⟨x, -, hwork⟩ := addByteWork_eq b hl
  rw [blocksCompressed, hwork]
  rfl

theorem blocksCompressed_digest {s : State} (hl : s.buf.length ≤ 63) :
    blocksCompressed .digest s = some (digestBlocks s.buf s.bitcount) := by
  obtain ⟨x, -, hwork⟩ := digestWork_eq hl
  rw [blocksCompressed, hwork]
  rfl

theorem exec_addByte_short {s : State} (b : Byte) (hp : s.phase = .accepting) (hl : s.buf.length ≤ 63) :
    ∃ x, hashBlocks s.h (fullBlocks (s.buf ++ [b])) = some x ∧ exec (.addByte b) s = .next { s with
      h := x, buf := lastBytes (s.buf ++ [b]), bitcount := s.bitcount + 8#64 } := by
  obtain ⟨x, hx, hwork⟩ := addByteWork_eq b hl
  rw [exec_addByte_accepting b hp, hwork]
  exact ⟨x, hx, rfl⟩

theorem exec_digest_short {s : State} (hp : s.phase = .accepting) (hl : s.buf.length ≤ 63) :
    ∃ x, hashBlocks s.h (digestBlocks s.buf s.bitcount) = some x ∧ exec .digest s = .next { s with
      h := x, buf := [], dout := x, phase := .finalized } := by
  obtain ⟨x, hx, hwork⟩ := digestWork_eq hl
  rw [exec_digest_accepting hp, hwork]
  exact ⟨x, hx, rfl⟩

theorem fullBlocks_append_byte {buf : List Byte} (b : Byte) (hl : buf.length ≤ 63) :
    fullBlocks (buf ++ [b]) = if buf.length = 63 then [buf ++ [b]] else [] := by
  split
  next h63 => exact fullBlocks_of_block (by simp [h63])
  next h63 => exact fullBlocks_of_lt (by simp; omega)

theorem digestBlocks_length (buf : List Byte) (c : BitVec 64) :
    (digestBlocks buf c).length = if 56 ≤ buf.length then 2 else 1 := by
  unfold digestBlocks
  split
  next h55 => rw [if_neg (by omega), List.length_singleton]
  next h56 => rw [if_pos (by omega), List.length_cons, List.length_singleton]

/-- From a short buffer no command meets BLOCK_LENGTH. -/
theorem exists_blocksCompressed (i : Instr) {s : State} (hl : s.buf.length ≤ 63) :
    ∃ bs, blocksCompressed i s = some bs := by
  cases i with
  | init => exact ⟨_, rfl⟩
  | addByte b => exact ⟨_, blocksCompressed_addByte b hl⟩
  | digest => exact ⟨_, blocksCompressed_digest hl⟩

/-- In ACCEPTING a command word's blocks are its command's. -/
theorem blocksCompressed_eq_wordBlocks {w : Word} {i : Instr} {s : State} (hd : decode w = .ok i)
    (hp : s.phase = .accepting) (hl : s.buf.length ≤ 63) : blocksCompressed i s = some (wordBlocks w s) := by
  obtain ⟨bs, hbs⟩ := exists_blocksCompressed i hl
  rw [wordBlocks_accepting hd hp, hbs, Option.getD_some]

theorem legal_of_decode {w : Word} {i : Instr} (hd : decode w = .ok i) : legal w = true := by rw [legal, hd]

/-- Where no body runs, nothing is compressed (60 R113). -/
theorem wordBlocks_eq_nil {w : Word} {s : State} (hrun : legal w = false ∨ s.phase ≠ .accepting) : wordBlocks w s = [] := by
  unfold wordBlocks
  split
  next i hd hp => simp [legal_of_decode hd, hp] at hrun
  next => rfl

/-- Where no body runs, a word that is not INIT leaves H as it is. -/
theorem CommandEffect.keeps_h {w : Word} {s t : State} (he : CommandEffect (decode w) s t) (hinit : decode w ≠ .ok .init)
    (hrun : legal w = false ∨ s.phase ≠ .accepting) : t.h = s.h := by
  by_contra hne
  obtain hd | ⟨b, hd, hp, -⟩ | ⟨hd, hp⟩ := he.h_written hne
  · exact hinit hd
  · simp [legal_of_decode hd, hp] at hrun
  · simp [legal_of_decode hd, hp] at hrun

/-- In ACCEPTING a command but INIT leaves H with its blocks compressed into it. -/
theorem exec_hashes_blocks {i : Instr} {s : State} (hi : i ≠ .init) (hp : s.phase = .accepting) (hl : s.buf.length ≤ 63) :
    ∃ t bs, exec i s = .next t ∧ blocksCompressed i s = some bs ∧ hashBlocks s.h bs = some t.h := by
  cases i with
  | init => exact absurd rfl hi
  | addByte b =>
    obtain ⟨x, hx, ht⟩ := exec_addByte_short b hp hl
    exact ⟨_, _, ht, blocksCompressed_addByte b hl, hx⟩
  | digest =>
    obtain ⟨x, hx, ht⟩ := exec_digest_short hp hl
    exact ⟨_, _, ht, blocksCompressed_digest hl, hx⟩

theorem executeWord_hashes_wordBlocks {w : Word} {s : State} (hinit : decode w ≠ .ok .init) (hl : s.buf.length ≤ 63) :
    ∃ t, executeWord w s = .next t ∧ hashBlocks s.h (wordBlocks w s) = some t.h := by
  by_cases hrun : legal w = false ∨ s.phase ≠ .accepting
  · obtain ⟨t, ht, he⟩ := executeWord_effect w s
    refine ⟨t, ht, ?_⟩
    rw [wordBlocks_eq_nil hrun, he.keeps_h hinit hrun, hashBlocks]
  · simp only [not_or, Bool.not_eq_false, not_not] at hrun
    obtain ⟨hlegal, hp⟩ := hrun
    obtain ⟨i, rfl⟩ := legal_iff_exists_encode.1 hlegal
    have hd : decode (encode i) = .ok i := decode_eq_ok_iff.2 rfl
    obtain ⟨t, bs, ht, hbs, hhash⟩ := exec_hashes_blocks (by simpa [hd] using hinit) hp hl
    refine ⟨t, (executeWord_of_ok s hd).trans ht, ?_⟩
    rwa [wordBlocks_accepting hd hp, hbs]

/-- Settles O18: the blocks of each command from its body's one form, and those of a word from the prologue. -/
theorem blocksEachCommandCompresses : Obligations.BlocksEachCommandCompresses := by
  intro s b hl
  refine ⟨rfl, ?_, blocksCompressed_digest hl, digestBlocks_length s.buf s.bitcount, fun w =>
    ⟨fun i hd hp => blocksCompressed_eq_wordBlocks hd hp hl, fun hrun => ?_, rfl,
      fun hinit => executeWord_hashes_wordBlocks hinit hl⟩⟩
  · rw [blocksCompressed_addByte b hl, fullBlocks_append_byte b hl]
  · rw [compressions, wordBlocks_eq_nil hrun, List.length_nil]

end Sys2Proof.Machine
end

section
/-! Whole sessions (42 R89-R96; 70 R136): INIT, ADD_BYTES, DIGEST, however the host delivers their command words. -/

namespace Sys2Proof.Machine

open Sys2Proof.Safety

/-! ### Runs of delivered command words -/

theorem run_succ_eq_next {M : Host.Core} {k : Nat} {s t : M.State} (ht : M.run (k + 1) s = .next t) :
    ∃ u, M.step s = .next u ∧ M.run k u = .next t := by
  rw [Host.Core.run] at ht
  split at ht
  next u hu => exact ⟨u, hu, ht⟩
  next => cases ht
  next => cases ht

/-- A step that delivers a command word runs it on the state in which its event is taken and its reads are made. -/
theorem step_of_delivered {s t : State} {e : HostEvent} {rest : List HostEvent} {w : Word} (hp : s.pending = e :: rest)
    (hw : deliveredWord e = some w) (ht : step s = .next t) : ∃ vs, executeWord w (atCommand rest vs s) = .next t := by
  obtain ⟨hidle, -⟩ | ⟨e', rest', vs, hp', hcases⟩ := step_cases ht
  · exact absurd (hp.symm.trans hidle) nofun
  · obtain ⟨rfl, rfl⟩ := List.cons.inj (hp.symm.trans hp')
    obtain ⟨-, w', hw', hx⟩ | ⟨-, hnone, -⟩ | ⟨-, hnone, -⟩ := hcases
    · obtain rfl := Option.some.inj (hw.symm.trans hw')
      exact ⟨vs, hx⟩
    · exact absurd (hw.symm.trans hnone) nofun
    · exact absurd (hw.symm.trans hnone) nofun

theorem deliveredWord_commandEvents (ws : List Word) : (commandEvents ws).map deliveredWord = ws.map some := by
  simp [commandEvents, deliveredWord]

/-- Command words written through the port with no reads in their BUSY windows all complete. -/
theorem run_commandEvents_completes {ws : List Word} {rest : List HostEvent} {s : State}
    (hp : s.pending = commandEvents ws ++ rest) : ∃ t, Host.Core.run core ws.length s = .next t := by
  induction ws generalizing s with
  | nil => exact ⟨s, rfl⟩
  | cons w ws ih =>
    obtain ⟨u, hu, he⟩ := executeWord_effect w { s with pending := commandEvents ws ++ rest, pc := s.pc + 1 }
    obtain ⟨-, hpending, -⟩ := he.outside
    obtain ⟨t, ht⟩ := ih hpending
    exact ⟨t, (run_succ_of_step (M := core) ws.length ((step_commandWord hp).trans hu)).trans ht⟩

/-! ### Ingestion (42 R89) -/

/-- What the words of ADD_BYTES m make of a state in ACCEPTING with a short buffer. -/
structure Ingests (m : List Byte) (s t : State) : Prop where
  h : hashBlocks s.h (fullBlocks (s.buf ++ m)) = some t.h
  buf : t.buf = lastBytes (s.buf ++ m)
  bitcount : t.bitcount = s.bitcount + BitVec.ofNat 64 (8 * m.length)
  phase : t.phase = .accepting
  err : t.err = s.err
  cause : t.cause = s.cause
  dout : t.dout = s.dout
  pc : t.pc = s.pc + m.length

theorem Ingests.nil {s : State} (hp : s.phase = .accepting) (hl : s.buf.length ≤ 63) : Ingests [] s s where
  h := by rw [List.append_nil, fullBlocks_of_lt (by omega), hashBlocks]
  buf := by rw [List.append_nil, lastBytes_of_lt (by omega)]
  bitcount := (BitVec.add_zero s.bitcount).symm
  phase := hp
  err := rfl
  cause := rfl
  dout := rfl
  pc := rfl

theorem Ingests.buf_length_le {m : List Byte} {s t : State} (ht : Ingests m s t) : t.buf.length ≤ 63 := by
  rw [ht.buf, lastBytes_length]
  omega

/-- Ingestion into a fresh engine, in the closed form of 42 R89. -/
theorem Ingests.of_fresh {m : List Byte} {s t : State} (ht : Ingests m s t) (hh : s.h = iv) (hbuf : s.buf = [])
    (hcount : s.bitcount = 0#64) :
    hashBlocks iv (fullBlocks m) = some t.h ∧ t.buf = lastBytes m ∧ t.bitcount = BitVec.ofNat 64 (8 * m.length) := by
  have hhash := ht.h
  have hlast := ht.buf
  have hbits := ht.bitcount
  rw [hh, hbuf, List.nil_append] at hhash
  rw [hbuf, List.nil_append] at hlast
  rw [hcount, BitVec.zero_add] at hbits
  exact ⟨hhash, hlast, hbits⟩

theorem Ingests.trans {u v : List Byte} {s t r : State} (ht : Ingests u s t) (hr : Ingests v t r) :
    Ingests (u ++ v) s r := by
  obtain ⟨hfull, hlast⟩ := fullBlocks_append (s.buf ++ u) v
  rw [List.append_assoc, ← ht.buf] at hfull hlast
  exact {
    h := by rw [hfull, hashBlocks_append _ ht.h, hr.h]
    buf := by rw [hlast, hr.buf]
    bitcount := by
      rw [hr.bitcount, ht.bitcount, BitVec.add_assoc, ← BitVec.ofNat_add, ← Nat.mul_add, List.length_append]
    phase := hr.phase
    err := hr.err.trans ht.err
    cause := hr.cause.trans ht.cause
    dout := hr.dout.trans ht.dout
    pc := by rw [hr.pc, ht.pc, List.length_append, Nat.add_assoc] }

/-- The step that delivers one ADD_BYTE ingests its byte, and compresses the blocks that the byte completes. -/
theorem step_addByte {s t : State} {e : HostEvent} {rest : List HostEvent} {b : Byte} (hp : s.pending = e :: rest)
    (hw : deliveredWord e = some (encode (.addByte b))) (hacc : s.phase = .accepting) (hl : s.buf.length ≤ 63)
    (ht : step s = .next t) : Ingests [b] s t ∧ t.pending = rest ∧ stepBlocks s = fullBlocks (s.buf ++ [b]) := by
  have hd : decode (encode (.addByte b)) = .ok (.addByte b) := decode_eq_ok_iff.2 rfl
  obtain ⟨vs, hx⟩ := step_of_delivered hp hw ht
  obtain ⟨x, hhash, hexec⟩ := exec_addByte_short (s := atCommand rest vs s) b hacc hl
  rw [executeWord_of_ok _ hd, hexec] at hx
  cases hx
  refine ⟨⟨hhash, rfl, rfl, hacc, rfl, rfl, rfl, rfl⟩, rfl, ?_⟩
  rw [stepBlocks_delivered hp hw, wordBlocks_accepting hd hacc, blocksCompressed_addByte b hl, Option.getD_some]

/-- A run begins with the words of ADD_BYTES m: they are ingested, and the rest of the run follows. -/
theorem run_ingests {m : List Byte} {es rest : List HostEvent} {k : Nat} {s t : State}
    (hes : es.map deliveredWord = (addBytesWords m).map some) (hp : s.pending = es ++ rest)
    (hacc : s.phase = .accepting) (hl : s.buf.length ≤ 63) (ht : Host.Core.run core (m.length + k) s = .next t) :
    ∃ u, Ingests m s u ∧ u.pending = rest ∧ Host.Core.run core k u = .next t ∧
      runBlocks (m.length + k) s = fullBlocks (s.buf ++ m) ++ runBlocks k u := by
  induction m generalizing s es with
  | nil =>
    obtain rfl := List.map_eq_nil_iff.1 hes
    rw [List.length_nil, Nat.zero_add] at ht ⊢
    exact ⟨s, .nil hacc hl, hp, ht, by rw [List.append_nil, fullBlocks_of_lt (by omega), List.nil_append]⟩
  | cons b m ih =>
    obtain ⟨e, es, rfl, hw, hes⟩ := List.map_eq_cons_iff.1 hes
    rw [List.length_cons, Nat.add_right_comm] at ht ⊢
    obtain ⟨s', hs', ht⟩ := run_succ_eq_next (M := core) ht
    obtain ⟨hb, hp', hblocks⟩ := step_addByte hp hw hacc hl hs'
    obtain ⟨u, hu, hpu, hrun, hrest⟩ := ih hes hp' hb.phase hb.buf_length_le ht
    obtain ⟨hfull, -⟩ := fullBlocks_append (s.buf ++ [b]) m
    rw [List.append_assoc, List.singleton_append, ← hb.buf] at hfull
    exact ⟨u, hb.trans hu, hpu, hrun, by rw [runBlocks_succ _ hs', hblocks, hrest, hfull, List.append_assoc]⟩

theorem addBytesWords_length (m : List Byte) : (addBytesWords m).length = m.length := by simp [addBytesWords]

/-- The count of a message that fits it does not wrap. -/
theorem toNat_bitcount {m : List Byte} (hm : m.length < 2 ^ 61) : (BitVec.ofNat 64 (8 * m.length)).toNat = 8 * m.length := by
  rw [BitVec.toNat_ofNat, Nat.mod_eq_of_lt (by omega)]

/-- Settles O54: ingestion from an empty buffer, IV and a count of zero. -/
theorem ingestionClosedForm : Obligations.IngestionClosedForm := by
  intro s m rest hm hh hbuf hcount hacc hp
  obtain ⟨t, ht⟩ := run_commandEvents_completes hp
  rw [addBytesWords_length] at ht
  obtain ⟨u, hu, hpending, hrun, -⟩ :=
    run_ingests (k := 0) (deliveredWord_commandEvents _) hp hacc (by simp [hbuf]) ht
  cases hrun
  obtain ⟨hhash, hlast, hbits⟩ := hu.of_fresh hh hbuf hcount
  exact ⟨t, t.h, ht, hhash, rfl, hlast, by rw [hbits, toNat_bitcount hm], hu.phase, hu.pc, hpending, hu.dout, hu.err,
    hu.cause⟩

/-! ### The session (42 R92) -/

/-- The step that delivers INIT constructs the engine and compresses nothing. -/
theorem step_init {s t : State} {e : HostEvent} {rest : List HostEvent} (hp : s.pending = e :: rest)
    (hw : deliveredWord e = some (encode .init)) (ht : step s = .next t) :
    (∃ vs, t = constructEngine (atCommand rest vs s)) ∧ stepBlocks s = [] := by
  have hd : decode (encode .init) = .ok .init := decode_eq_ok_iff.2 rfl
  obtain ⟨vs, hx⟩ := step_of_delivered hp hw ht
  rw [executeWord_of_ok _ hd, exec_init] at hx
  cases hx
  refine ⟨⟨vs, rfl⟩, ?_⟩
  rw [stepBlocks_delivered hp hw]
  by_cases hacc : s.phase = .accepting
  · rw [wordBlocks_accepting hd hacc, blocksCompressed, Option.getD_some]
  · exact wordBlocks_eq_nil (.inr hacc)

/-- The state that the session on m leaves, begun in `s`, when its DIGEST is still to come. -/
structure Ingested (m : List Byte) (s t : State) : Prop where
  h : hashBlocks iv (fullBlocks m) = some t.h
  buf : t.buf = lastBytes m
  bitcount : t.bitcount = BitVec.ofNat 64 (8 * m.length)
  phase : t.phase = .accepting
  err : t.err = s.err
  cause : t.cause = s.cause

/-- The state that the session on m leaves, begun in `s`. -/
structure Digested (m : List Byte) (s t : State) : Prop where
  h : hashBlocks iv (fullBlocks (paddedMessage m)) = some t.h
  dout : t.dout = t.h
  buf : t.buf = []
  bitcount : t.bitcount = BitVec.ofNat 64 (8 * m.length)
  phase : t.phase = .finalized
  err : t.err = s.err
  cause : t.cause = s.cause

/-- A run begins with INIT and ADD_BYTES m, from any state. -/
theorem run_init_ingests {m : List Byte} {es rest : List HostEvent} {k : Nat} {s t : State}
    (hes : es.map deliveredWord = (encode .init :: addBytesWords m).map some) (hp : s.pending = es ++ rest)
    (ht : Host.Core.run core (m.length + k + 1) s = .next t) :
    ∃ u, Ingested m s u ∧ u.pending = rest ∧ Host.Core.run core k u = .next t ∧
      runBlocks (m.length + k + 1) s = fullBlocks m ++ runBlocks k u := by
  obtain ⟨e, es, rfl, hw, hes⟩ := List.map_eq_cons_iff.1 hes
  obtain ⟨s', hs', ht⟩ := run_succ_eq_next (M := core) ht
  obtain ⟨⟨vs, rfl⟩, hblocks⟩ := step_init hp hw hs'
  obtain ⟨u, hu, hpending, hrun, hrest⟩ := run_ingests hes rfl (constructEngine_phase _) (Nat.zero_le 63) ht
  obtain ⟨hhash, hlast, hbits⟩ := hu.of_fresh rfl rfl rfl
  refine ⟨u, ⟨hhash, hlast, hbits, hu.phase, hu.err, hu.cause⟩, hpending, hrun, ?_⟩
  rw [runBlocks_succ _ hs', hblocks, hrest, constructEngine_buf, List.nil_append, List.nil_append]

theorem Ingested.buf_length_le {m : List Byte} {s t : State} (ht : Ingested m s t) : t.buf.length ≤ 63 := by
  rw [ht.buf, lastBytes_length]
  omega

/-- The step that delivers DIGEST compresses the padded message's blocks that are left, and publishes the result. -/
theorem step_digest {m : List Byte} {r s t : State} {e : HostEvent} {rest : List HostEvent} (hs : Ingested m r s)
    (hp : s.pending = e :: rest) (hw : deliveredWord e = some (encode .digest)) (ht : step s = .next t) :
    Digested m r t ∧ t.pending = rest ∧ fullBlocks m ++ stepBlocks s = fullBlocks (paddedMessage m) := by
  have hd : decode (encode .digest) = .ok .digest := decode_eq_ok_iff.2 rfl
  have hpadded : fullBlocks (paddedMessage m) = fullBlocks m ++ digestBlocks s.buf s.bitcount := by
    rw [fullBlocks_paddedMessage, hs.buf, hs.bitcount]
  obtain ⟨vs, hx⟩ := step_of_delivered hp hw ht
  obtain ⟨x, hhash, hexec⟩ := exec_digest_short (s := atCommand rest vs s) hs.phase hs.buf_length_le
  rw [executeWord_of_ok _ hd, hexec] at hx
  cases hx
  refine ⟨⟨?_, rfl, rfl, hs.bitcount, rfl, hs.err, hs.cause⟩, rfl, ?_⟩
  · rw [hpadded, hashBlocks_append _ hs.h]
    exact hhash
  · rw [hpadded, stepBlocks_delivered hp hw, wordBlocks_accepting hd hs.phase, blocksCompressed_digest hs.buf_length_le,
      Option.getD_some]

/-- The run of a whole session, from any state and with any delivery of its words. -/
theorem run_session {m : List Byte} {es rest : List HostEvent} {s t : State}
    (hes : es.map deliveredWord = (encode .init :: addBytesWords m ++ [encode .digest]).map some)
    (hp : s.pending = es ++ rest) (ht : Host.Core.run core (m.length + 2) s = .next t) :
    Digested m s t ∧ t.pending = rest ∧ runBlocks (m.length + 2) s = fullBlocks (paddedMessage m) := by
  rw [List.map_append] at hes
  obtain ⟨es, last, rfl, hfirst, hlast⟩ := List.map_eq_append_iff.1 hes
  obtain ⟨e, rfl, hw⟩ := List.map_eq_singleton_iff.1 hlast
  rw [List.append_assoc] at hp
  obtain ⟨u, hu, hpending, hrun, hblocks⟩ := run_init_ingests (k := 1) hfirst hp ht
  obtain ⟨t', ht', hrun⟩ := run_succ_eq_next (M := core) hrun
  cases hrun
  obtain ⟨hdigested, hrest, hpadded⟩ := step_digest hu hpending hw ht'
  exact ⟨hdigested, hrest, by rw [hblocks, runBlocks_succ 0 ht', runBlocks_zero, List.append_nil, hpadded]⟩

theorem session_length (m : List Byte) :
    (encode .init :: addBytesWords m ++ [encode .digest]).length = m.length + 2 := by
  simp [addBytesWords_length]

/-- Settles O55: a session whose words all complete, and the arithmetic of the padding. -/
theorem sessionHashesThePaddedMessage : Obligations.SessionHashesThePaddedMessage := by
  intro s m rest _ hp
  obtain ⟨t, ht⟩ := run_commandEvents_completes hp
  rw [session_length] at ht
  obtain ⟨hdigested, hpending, hblocks⟩ := run_session (deliveredWord_commandEvents _) hp ht
  exact ⟨paddedMessage_length_mod m, padZeros_fills m.length, fun k hk => padZeros_le hk, hblocks, t, t.h, ht,
    hdigested.h, hdigested.dout, rfl, hdigested.phase, hdigested.buf, hdigested.err, hdigested.cause, hpending⟩

/-- The blocks compressed before a session's DIGEST are the message's full blocks. -/
theorem runBlocks_init_ingests {s : State} {m : List Byte} {rest : List HostEvent}
    (hp : s.pending = commandEvents (encode .init :: addBytesWords m) ++ rest) :
    runBlocks (m.length + 1) s = fullBlocks m := by
  obtain ⟨t, ht⟩ := run_commandEvents_completes hp
  rw [List.length_cons, addBytesWords_length] at ht
  obtain ⟨u, -, -, -, hblocks⟩ := run_init_ingests (k := 0) (deliveredWord_commandEvents _) hp ht
  rwa [runBlocks_zero, List.append_nil] at hblocks

/-- Settles O56: the compressions of a run are the blocks it compresses, which are the padded message's. -/
theorem sessionBlockCount : Obligations.SessionBlockCount := by
  intro s m rest hp
  obtain ⟨t, ht⟩ := run_commandEvents_completes hp
  rw [session_length] at ht
  obtain ⟨-, -, hblocks⟩ := run_session (deliveredWord_commandEvents _) hp ht
  have hbefore : runBlocks (m.length + 1) s = fullBlocks m := by
    rw [commandEvents, List.map_append, List.append_assoc] at hp
    exact runBlocks_init_ingests hp
  rw [runCompressions_eq, runCompressions_eq, hbefore, hblocks]
  exact ⟨fullBlocks_length m, fullBlocks_paddedMessage_length m, rfl, flatten_fullBlocks (paddedMessage_length_mod m)⟩

/-- Settles O57: what a session leaves in these registers is given by its message alone. -/
theorem digestDependsOnlyOnMessage : Obligations.DigestDependsOnlyOnMessage := by
  intro s₁ s₂ t₁ t₂ m es₁ es₂ rest₁ rest₂ hes₁ hes₂ hp₁ hp₂ ht₁ ht₂
  obtain ⟨h₁, -, -⟩ := run_session hes₁ hp₁ ht₁
  obtain ⟨h₂, -, -⟩ := run_session hes₂ hp₂ ht₂
  have hh : t₁.h = t₂.h := Option.some.inj (h₁.h.symm.trans h₂.h)
  exact ⟨by rw [h₁.dout, h₂.dout, hh], hh, h₁.buf.trans h₂.buf.symm, h₁.bitcount.trans h₂.bitcount.symm,
    h₁.phase.trans h₂.phase.symm⟩

end Sys2Proof.Machine
end

section
/-! Contract violations (60 R105-R117, R125): where a cause is raised, what a faulting command keeps, and what leaves FAULTED. -/

namespace Sys2Proof.Machine

open Sys2Proof.Safety

/-! ### FAULTED (60 R114, R116) -/

theorem CommandEffect.eq_of_faulted {d : Except IllegalWord Instr} {s t : State} (he : CommandEffect d s t)
    (hp : s.phase = .faulted) (hd : d ≠ .ok .init) : t = s := by
  cases he with
  | constructed hinit => exact absurd hinit hd
  | buffered _ _ hother | compressed _ _ _ hother | published _ _ hother | overlong _ hother | misused _ _ _ hother =>
    exact absurd (hp.symm.trans hother) nofun
  | illegal _ _ hne => exact absurd hp hne
  | ignored => rfl

/-- Settles O21: every word completes, and its only effect on a faulted state is to keep it. -/
theorem faultedIgnoresAllButInit : Obligations.FaultedIgnoresAllButInit := by
  intro s w hp hd
  obtain ⟨t, ht, he⟩ := executeWord_effect w s
  rw [ht, he.eq_of_faulted hp hd]

/-- Settles O25: a step that leaves FAULTED writes PHASE, and of the command words only INIT does so there. -/
theorem faultedIsLeftOnlyByInitOrReset : Obligations.FaultedIsLeftOnlyByInitOrReset := by
  intro s t e rest hp hfaulted ht hleft
  have hwritten : t.phase ≠ s.phase := by rwa [hfaulted]
  obtain ⟨e', rest', hp', hwriter⟩ := step_writer (f := State.phase) (fun _ _ => rfl) ht hwritten
  obtain ⟨rfl, rfl⟩ := List.cons.inj (hp.symm.trans hp')
  obtain ⟨hr, -⟩ | ⟨w, vs, hw, he⟩ := hwriter
  · exact .inl hr
  · have hinit : decode w = .ok .init := by
      by_contra hd
      exact hwritten (by rw [he.eq_of_faulted hfaulted hd, atCommand_phase])
    exact .inr (hw.trans (congrArg some (decode_eq_ok_iff.1 hinit)))

/-! ### Raising a cause (60 R109-R111, R115) -/

/-- Settles O19: the prologue's answers to an illegal word and in FINALIZED, with the raising of the cause written out. -/
theorem eachCauseIsRaisedWhereTheSpecSays : Obligations.EachCauseIsRaisedWhereTheSpecSays := by
  intro s w
  refine ⟨fun hillegal hp => ?_, fun i hd hi hp => ?_, fun hd _ => ?_⟩
  · obtain ⟨e, hd⟩ := legal_eq_false_iff.1 hillegal
    rw [executeWord_of_error s hd, rejectIllegal_of_ne_faulted hp]
    rfl
  · rw [executeWord_of_ok s hd, exec_finalized hi hp]
    rfl
  · exact ⟨constructEngine s, executeWord_of_ok s hd, rfl, rfl, rfl⟩

/-- Settles O20: a command that enters FAULTED raised a fault on the state it found. -/
theorem faultsArePreciseAndKeepFirstCause : Obligations.FaultsArePreciseAndKeepFirstCause := by
  intro s t w hp ht hfaulted
  obtain ⟨c, hc, rfl⟩ | ⟨-, -, hkept⟩ := (CommandEffect.of_executeWord ht).fault_or_keeps
  · exact ⟨rfl, fun herr => by simp [herr], fun herr => by simpa [herr] using hc⟩
  · exact absurd (hkept hfaulted) hp

/-! ### No fault in ACCEPTING, and no BLOCK_LENGTH (60 R106, R112) -/

/-- Settles O17: of a command's effects in ACCEPTING only BLOCK_LENGTH is a fault, which needs 64 buffered bytes. -/
theorem legalCommandsInAcceptingNeverFault : Obligations.LegalCommandsInAcceptingNeverFault := by
  intro i s hp hl
  obtain ⟨t, ht, he⟩ := exec_effect i s
  refine ⟨t, ht, ?_⟩
  cases he with
  | constructed | published => exact ⟨nofun, rfl, rfl⟩
  | buffered | compressed => exact ⟨by simp [hp], rfl, rfl⟩
  | overlong _ _ h64 => omega
  | misused _ _ _ hother | ignored _ hother => exact absurd (hp.symm.trans hother) nofun
  | illegal _ hd => cases hd

theorem raiseFault_cause_ne {c c' : Cause} {s : State} (hc : c ≠ c') (hs : s.cause ≠ c') :
    (raiseFault c s).cause ≠ c' := by
  rw [raiseFault_cause]
  split
  · exact hs
  · exact hc

theorem CommandEffect.cause_ne_blockLength {d : Except IllegalWord Instr} {s t : State} (he : CommandEffect d s t)
    (hl : BufferShort s) (hs : s.cause ≠ .blockLength) : t.cause ≠ .blockLength := by
  cases he with
  | constructed | buffered | compressed | published | ignored => exact hs
  | overlong _ _ h64 => exact absurd hl (by omega)
  | misused | illegal => exact raiseFault_cause_ne nofun hs

/-- Settles O23: of the invariant only the buffer bound is needed, and every step keeps the bound and CAUSE clear of
BLOCK_LENGTH together. -/
theorem blockLengthIsUnreachable : Obligations.BlockLengthIsUnreachable := by
  rintro s t ⟨hl, -⟩ hs ht
  have hkept : BufferShort t ∧ t.cause ≠ .blockLength :=
    step_keeps (P := fun u => BufferShort u ∧ u.cause ≠ .blockLength) (fun _ _ _ hu => hu) (fun _ _ _ hu => hu)
      (fun _ => ⟨Nat.zero_le 63, nofun⟩)
      (fun _ _ _ he ⟨hbuffer, hcause⟩ => ⟨he.keeps_bufferShort hbuffer, he.cause_ne_blockLength hbuffer hcause⟩)
      ⟨hl, hs⟩ ht
  exact hkept.2

/-! ### The idle core (60 R125) -/

/-- Settles O10. -/
theorem idleCoreHoldsItsState : Obligations.IdleCoreHoldsItsState := fun _ hp => step_idle hp

end Sys2Proof.Machine
end

section
/-! Construction by INIT and by hardware reset (70 R126, R127, R134). -/

namespace Sys2Proof.Machine

open Sys2Proof.Safety

/-- INIT constructs what hardware reset does, but does not clear the fault record and the position (70 R127). -/
theorem constructEngine_eq_hardReset (s : State) :
    constructEngine s = { hardReset s with err := s.err, cause := s.cause, pc := s.pc } := rfl

/-- Settles O13: INIT always completes, with the engine that construction gives. -/
theorem initDiffersFromResetInErrAndCause : Obligations.InitDiffersFromResetInErrAndCause := by
  intro s t ht
  rw [exec_init] at ht
  obtain rfl := Host.Outcome.next.inj ht
  exact constructEngine_eq_hardReset s

theorem step_reset {s : State} {rest : List HostEvent} (hp : s.pending = .reset :: rest) :
    step s = .next (hardReset (takeEvent rest s)) := by rw [step_event hp, hostEvent]

/-- A reset in a BUSY window leaves only the answered reads of that window: neither the running word nor the held one has any
effect (70 R134). -/
theorem step_resetWhileBusy {s : State} {w : Word} {during : List HostRead} {held : Option Word} {rest : List HostEvent}
    (hall : during.all readAllowed = true) (hp : s.pending = .resetWhileBusy w during held :: rest) :
    step s = .next (hardReset (withReads (during.map fun r => readValue true r s) (takeEvent rest s))) := by
  rw [step_event hp, hostEvent, hostReadAll_allowed true _ hall, andThen_next]
  simp only [readValue_takeEvent]

/-- Settles O44: both kinds of reset end in the reset state, which keeps only the host's own data. -/
theorem hardwareResetAbandonsEverything : Obligations.HardwareResetAbandonsEverything := by
  intro s rest
  refine ⟨fun hp => ?_, fun w during held hall hp => ?_⟩
  · rw [step_reset hp]
    rfl
  · rw [step_resetWhileBusy hall hp]
    rfl

end Sys2Proof.Machine
end

section
/-! Accesses outside the register window (20 R40; log entry 6). -/

namespace Sys2Proof.Machine

theorem hostRead_window_outside {offset : Nat} (busy : Bool) (size : AccessSize) (s : State) (h64 : 64 ≤ offset) :
    hostRead busy (.window offset size) s = .fault .outsideWindow := by
  rw [hostRead, windowAccess_outside size _ s h64]

theorem hostWrite_window_outside {offset : Nat} (size : AccessSize) (d : Word) (during : List HostRead) (s : State)
    (h64 : 64 ≤ offset) : hostWrite (.window offset size d) during s = .fault .outsideWindow := by
  rw [hostWrite, windowAccess_outside size _ s h64]

/-- Settles O40: the access check of the window looks at the offset first, for reads and writes of every size. -/
theorem accessOutsideWindowFaults : Obligations.AccessOutsideWindowFaults := by
  intro s rest offset size d during h64 hpending
  obtain hread | hwrite := hpending
  · rw [step_event hread]
    exact hostRead_window_outside false size _ h64
  · rw [step_event hwrite]
    exact hostWrite_window_outside size d during _ h64

end Sys2Proof.Machine
end

section
/-! The samples of the decode table (95 section 7). -/

namespace Sys2Proof.Machine

/-- Settles O5: a legal sample is the encoding of its command, and an illegal one decodes to the error of its class (30 R51). -/
theorem decodeTableSamples : Obligations.DecodeTableSamples := by
  refine ⟨decode_eq_ok_iff.2 rfl, decode_eq_ok_iff.2 rfl, decode_eq_ok_iff.2 rfl, decode_eq_ok_iff.2 rfl, ?_, ?_, ?_, ?_⟩
  · exact legal_eq_false_iff.2 ⟨.unassignedOp 0x00#8, rfl⟩
  · exact legal_eq_false_iff.2 ⟨.initFieldsNotZero, rfl⟩
  · exact legal_eq_false_iff.2 ⟨.addByteReservedNotZero, rfl⟩
  · exact legal_eq_false_iff.2 ⟨.digestFieldsNotZero, rfl⟩

end Sys2Proof.Machine
end
